-- ==== Sys2Proof/Word.lean ====
section
/-!
DEFINITION. The bit vectors the spec gives widths to (00_scope.md R8, 30_encoding.md R72).
-/

namespace Sys2Proof

/-- 8 bits: a general register, a timer, a memory byte, the immediate `nn`. -/
abbrev Byte := BitVec 8

/-- 16 bits: `I`, `pc`, a stack entry, an instruction word. -/
abbrev Word := BitVec 16

/-- 12 bits: the address operand `nnn`. -/
abbrev Addr12 := BitVec 12

/-- A register index, "always in `[0,15]` by construction" (10_state.md R21). -/
abbrev Reg := Fin 16

/-- VF, the flag register (10_state.md R22). -/
abbrev VF : Reg := 15

/-- V0, which `JP V0, nnn` reads (40_control_flow.md R108). -/
abbrev V0 : Reg := 0

end Sys2Proof
end

