-- ==== Sys2Proof/Config.lean ====
section
/-!
DEFINITION. What is fixed for the machine (00_scope.md R8), and what the spec leaves open (R9): the
configuration `P_9XY0` and the two draws, opaque constants of which nothing can be proved. The
parameter GLYPH, which has a default, is in Machine/Glyph.lean.
-/

namespace Sys2Proof.Config

/-- `MEM_SIZE`: addresses 0 to 4095 (00_scope.md R8). -/
abbrev memSize : Nat := 4096

/-- `PROGRAM_BASE`: where LOAD puts a program and the first STEP fetches (00_scope.md R8). -/
abbrev programBase : Nat := 0x200

/-- `PROGRAM_CAPACITY` = 4096 - 0x200 (00_scope.md R8). -/
abbrev programCapacity : Nat := 3584

/-- `GLYPH_SIZE`: 16 glyphs of 5 bytes (00_scope.md R8). -/
abbrev glyphSize : Nat := 80

/-- `STACK_DEPTH` (00_scope.md R8). -/
abbrev stackDepth : Nat := 16

/-- The two values of the parameter `P_9XY0` (00_scope.md R9, 92_eei_decisions.md D11). -/
inductive SneSource where
  /-- `TABLE`: 9XY0 compares V[x] with V[y]. -/
  | table
  /-- `REFERENCE`: 9XY0 compares V[x] with V[x], so it never skips. -/
  | reference
deriving DecidableEq, Repr, Inhabited

/-- The parameter `P_9XY0`, which the spec leaves OPEN (40_control_flow.md R107, 90_conflicts.md C6).
DESIGN CHOICE, safe: an opaque constant (log entry 1). -/
opaque p9xy0 : SneSource

/-- The draw `rnd`: the value the k-th executed CXNN takes, "any 8-bit value" (41_alu.md R141).
DESIGN CHOICE, safe: a free value of the counter `State.rndDraws` (log entry 3). -/
opaque rnd : Nat → Byte

/-- The draw `keysel`: it decides which set key the k-th completed FX0A records, "any i with
K[i] = true" (44_timers_keys.md R184). `Machine.pickKey` turns it into a set key.
DESIGN CHOICE, safe: a free value of the counter `State.keyselDraws` (log entry 4). -/
opaque keysel : Nat → Nat

end Sys2Proof.Config
end

