-- ==== Sys2Proof/Machine/State.lean ====
section
/-!
DEFINITION. The state of the core (10_state.md R20), its reset value (R37), the fault record
(60_exceptions.md R200, R201), and the two stop reasons of the host's interface.
-/

namespace Sys2Proof.Machine

/-- The six fault kinds (60_exceptions.md R200). -/
inductive FaultKind where
  /-- code 1: the fetched word matches no row of the opcode map -/
  | decodeFailure
  /-- code 2: `pc` is odd at a fetch -/
  | misalignedFetch
  /-- code 3: a fetch or a sprite row at 4096 or above -/
  | memOutOfRange
  /-- code 4: a CALL with `sp = 16` -/
  | stackOverflow
  /-- code 5: a RET with `sp = 0` -/
  | stackUnderflow
  /-- code 6: SKP or SKNP with V[x] of 16 or more -/
  | keyIndexOutOfRange
deriving DecidableEq, Repr

/-- A fault as it is raised: its kind and the "info recorded" of 60_exceptions.md R200. `info` is a
natural number, because an address `I + r` is computed without truncation (43_display.md R171). -/
structure Raised where
  kind : FaultKind
  info : Nat
deriving DecidableEq, Repr

/-- The fault record `(code, addr, word, info)` (60_exceptions.md R201). `word` is `none` for a fault
raised by the fetch. -/
structure FaultRecord where
  kind : FaultKind
  addr : Word
  word : Option Word
  info : Nat
deriving DecidableEq, Repr

/-- `M`: the bytes that differ from what an unlisted address reads as (`Memory.unlisted`), by strictly
rising address. -/
abbrev Memory := List Host.Cell

/-- The framebuffer, 32 rows of 64 one-bit cells: `FB[col, row]` is bit `col` of row `row`, so the cells
counted on through the rows have the linear index `col + 64*row` (10_state.md R30; log entry 11). -/
abbrev Framebuffer := Vector (BitVec 64) 32

/-- The complete state of the core (10_state.md R20), and the two counters of the free values. -/
structure State where
  /-- `V[0..15]` (R21) -/
  v : Vector Byte 16
  /-- `I` (R24) -/
  i : Word
  /-- `pc` (R25) -/
  pc : Word
  /-- `stack[0..15]` (R26) -/
  stack : Vector Word 16
  /-- `sp`, 0 to 16 (R26) -/
  sp : Fin 17
  /-- `DT`, the delay timer (R27) -/
  dt : Byte
  /-- `ST`, the sound timer (R28) -/
  st : Byte
  /-- `K[0..15]`, true is pressed (R29) -/
  keys : Vector Bool 16
  /-- `FB`, true is lit (R30) -/
  fb : Framebuffer
  /-- `M` (R31) -/
  mem : Memory
  /-- the fault latch, `none` or a record (R33) -/
  fault : Option FaultRecord
  /-- the model's own: how many values of the draw `rnd` were taken (log entries 3 and 5) -/
  rndDraws : Nat
  /-- the model's own: how many values of the draw `keysel` were taken (log entries 4 and 5) -/
  keyselDraws : Nat
deriving DecidableEq, Repr

/-- The state after RESET and of a new machine (10_state.md R37). Memory lists nothing: an unlisted
address reads as its reset content. -/
def State.reset : State where
  v := Vector.replicate 16 0
  i := 0
  pc := 0x200
  stack := Vector.replicate 16 0
  sp := 0
  dt := 0
  st := 0
  keys := Vector.replicate 16 false
  fb := Vector.replicate 32 0
  mem := []
  fault := none
  rndDraws := 0
  keyselDraws := 0

/-- Reasons for the host's outcome `fault`. There are none: every fault of the spec has an effect on
the state, the latch (60_exceptions.md R205), and is taken as a next state (log entry 6). -/
inductive Fault where
deriving DecidableEq, Repr

/-- Reasons for the host's outcome `refused`. No step is refused. -/
inductive Refusal where
  /-- an instruction that has no meaning yet; raised only by an arm of `exec`, and no arm does. Safe. -/
  | notModelled (mnemonic : String)
  /-- SET_KEY with an index of 16 or more, which "is not a command of the core: a model gives it no
  transition" (60_exceptions.md R215); raised by `command`, never by a step. Safe. -/
  | noSuchKey (index : Nat)
deriving DecidableEq, Repr

/-- What a step or a meaning answers. -/
abbrev Answer := Host.Outcome State Fault Refusal

end Sys2Proof.Machine
end

