-- ==== Sys2Proof/Machine/Flags.lean ====
section
/-!
DEFINITION. The flag values written to VF (41_alu.md R142, R136 to R140; 43_display.md R174).
-/

namespace Sys2Proof.Machine

/-- A flag as a register value. -/
def flagByte (c : Bool) : Byte := if c then 1 else 0

/-- The carry of an addition: 1 when the exact sum is 256 or more (41_alu.md R142). -/
def carryFlag (a b : Byte) : Byte := flagByte (256 ≤ a.toNat + b.toNat)

/-- The flag of a subtraction a - b: 0 when it borrows, that is when a < b, else 1 (41_alu.md R137,
R142). -/
def notBorrowFlag (a b : Byte) : Byte := flagByte (!(a.toNat < b.toNat))

/-- Bit 0 before a shift right (41_alu.md R138). -/
def shiftedOutRight (a : Byte) : Byte := flagByte (a.getLsbD 0)

/-- Bit 7 before a shift left (41_alu.md R140). -/
def shiftedOutLeft (a : Byte) : Byte := flagByte (a.getLsbD 7)

end Sys2Proof.Machine
end

