-- ==== Sys2Proof/Syntax.lean ====
section
/-!
DEFINITION. The instruction set: one constructor per row of spec/opcode_table.json, in the table's
order (30_encoding.md R74). Each operand has the type of its field (R72), so an operand out of its
field's range cannot be written.
-/

namespace Sys2Proof

/-- The 31 instructions (30_encoding.md R74). -/
inductive Instr where
  /-- 0000 `NOP` (R100) -/
  | nop
  /-- 00E0 `CLS` (R170) -/
  | cls
  /-- 00EE `RET` (R101) -/
  | ret
  /-- 1NNN `JP nnn` (R102) -/
  | jp (nnn : Addr12)
  /-- 2NNN `CALL nnn` (R103) -/
  | call (nnn : Addr12)
  /-- 3XNN `SE Vx, nn` (R104) -/
  | seImm (x : Reg) (nn : Byte)
  /-- 4XNN `SNE Vx, nn` (R105) -/
  | sneImm (x : Reg) (nn : Byte)
  /-- 5XY0 `SE Vx, Vy` (R106) -/
  | seReg (x y : Reg)
  /-- 6XNN `LD Vx, nn` (R130) -/
  | ldImm (x : Reg) (nn : Byte)
  /-- 7XNN `ADD Vx, nn` (R131) -/
  | addImm (x : Reg) (nn : Byte)
  /-- 8XY0 `LD Vx, Vy` (R132) -/
  | ldReg (x y : Reg)
  /-- 8XY1 `OR Vx, Vy` (R133) -/
  | orReg (x y : Reg)
  /-- 8XY2 `AND Vx, Vy` (R134) -/
  | andReg (x y : Reg)
  /-- 8XY3 `XOR Vx, Vy` (R135) -/
  | xorReg (x y : Reg)
  /-- 8XY4 `ADD Vx, Vy` (R136) -/
  | addReg (x y : Reg)
  /-- 8XY5 `SUB Vx, Vy` (R137) -/
  | subReg (x y : Reg)
  /-- 8XY6 `SHR Vx, Vy` (R138): y is encoded but not read -/
  | shr (x y : Reg)
  /-- 8XY7 `SUBN Vx, Vy` (R139) -/
  | subn (x y : Reg)
  /-- 8XYE `SHL Vx, Vy` (R140): y is encoded but not read -/
  | shl (x y : Reg)
  /-- 9XY0 `SNE Vx, Vy` (R107) -/
  | sneReg (x y : Reg)
  /-- ANNN `LD I, nnn` (R160) -/
  | ldI (nnn : Addr12)
  /-- BNNN `JP V0, nnn` (R108) -/
  | jpV0 (nnn : Addr12)
  /-- CXNN `RND Vx, nn` (R141) -/
  | rnd (x : Reg) (nn : Byte)
  /-- DXYN `DRW Vx, Vy, n` (R171); n is the row count, 0 to 15 -/
  | drw (x y : Reg) (n : Fin 16)
  /-- EX9E `SKP Vx` (R180) -/
  | skp (x : Reg)
  /-- EXA1 `SKNP Vx` (R181) -/
  | sknp (x : Reg)
  /-- FX07 `LD Vx, DT` (R182) -/
  | ldFromDt (x : Reg)
  /-- FX0A `LD Vx, K` (R183) -/
  | ldKey (x : Reg)
  /-- FX15 `LD DT, Vx` (R186) -/
  | ldToDt (x : Reg)
  /-- FX18 `LD ST, Vx` (R187) -/
  | ldToSt (x : Reg)
  /-- FX1E `ADD I, Vx` (R161) -/
  | addI (x : Reg)
deriving DecidableEq, Repr

end Sys2Proof
end

