-- ==== Sys2Proof/Decode.lean ====
section
/-!
DEFINITION. The encoding of 30_encoding.md: the operand fields (R71, R72), the opcode map of 31 rows
(R74), the decoder, total on any word and any bytes, and the encoder, written from the same rows.
-/

namespace Sys2Proof

/-- Field x, w[11:8], a register index (30_encoding.md R72). -/
def fieldX (w : Word) : Reg := (w.extractLsb' 8 4).toFin

/-- Field y, w[7:4], a register index (30_encoding.md R72). -/
def fieldY (w : Word) : Reg := (w.extractLsb' 4 4).toFin

/-- Field n, w[3:0], the row count of DXYN (30_encoding.md R72). -/
def fieldN (w : Word) : Fin 16 := (w.extractLsb' 0 4).toFin

/-- Field nn, w[7:0], an 8-bit immediate (30_encoding.md R72). -/
def fieldNN (w : Word) : Byte := w.extractLsb' 0 8

/-- Field nnn, w[11:0], a 12-bit address (30_encoding.md R72). -/
def fieldNNN (w : Word) : Addr12 := w.extractLsb' 0 12

/-- One row of the opcode map (30_encoding.md R74): mask, match, and the instruction its fields
make. -/
structure OpcodeRow where
  mask : Word
  pattern : Word
  build : Word → Instr

/-- "a word w selects a row when `(w & mask) = match`" (30_encoding.md R74). -/
def OpcodeRow.selects (r : OpcodeRow) (w : Word) : Bool := w &&& r.mask == r.pattern

/-- Rows whose four nibbles, or all but an address, are one opcode: formats Z and NNN (R73). -/
def opcodeRowsZN : List OpcodeRow :=
  [ ⟨0xFFFF, 0x0000, fun _ => .nop⟩,
    ⟨0xFFFF, 0x00E0, fun _ => .cls⟩,
    ⟨0xFFFF, 0x00EE, fun _ => .ret⟩,
    ⟨0xF000, 0x1000, fun w => .jp (fieldNNN w)⟩,
    ⟨0xF000, 0x2000, fun w => .call (fieldNNN w)⟩,
    ⟨0xF000, 0xA000, fun w => .ldI (fieldNNN w)⟩,
    ⟨0xF000, 0xB000, fun w => .jpV0 (fieldNNN w)⟩ ]

/-- Rows with a register and an immediate: format XNN (R73). -/
def opcodeRowsXNN : List OpcodeRow :=
  [ ⟨0xF000, 0x3000, fun w => .seImm (fieldX w) (fieldNN w)⟩,
    ⟨0xF000, 0x4000, fun w => .sneImm (fieldX w) (fieldNN w)⟩,
    ⟨0xF000, 0x6000, fun w => .ldImm (fieldX w) (fieldNN w)⟩,
    ⟨0xF000, 0x7000, fun w => .addImm (fieldX w) (fieldNN w)⟩,
    ⟨0xF000, 0xC000, fun w => .rnd (fieldX w) (fieldNN w)⟩ ]

/-- Rows with two registers: formats XYF and XYN (R73). The rows of SHR, SHL and SNE carry y as the
others do (log entry 16). -/
def opcodeRowsXY : List OpcodeRow :=
  [ ⟨0xF00F, 0x5000, fun w => .seReg (fieldX w) (fieldY w)⟩,
    ⟨0xF00F, 0x8000, fun w => .ldReg (fieldX w) (fieldY w)⟩,
    ⟨0xF00F, 0x8001, fun w => .orReg (fieldX w) (fieldY w)⟩,
    ⟨0xF00F, 0x8002, fun w => .andReg (fieldX w) (fieldY w)⟩,
    ⟨0xF00F, 0x8003, fun w => .xorReg (fieldX w) (fieldY w)⟩,
    ⟨0xF00F, 0x8004, fun w => .addReg (fieldX w) (fieldY w)⟩,
    ⟨0xF00F, 0x8005, fun w => .subReg (fieldX w) (fieldY w)⟩,
    ⟨0xF00F, 0x8006, fun w => .shr (fieldX w) (fieldY w)⟩,
    ⟨0xF00F, 0x8007, fun w => .subn (fieldX w) (fieldY w)⟩,
    ⟨0xF00F, 0x800E, fun w => .shl (fieldX w) (fieldY w)⟩,
    ⟨0xF00F, 0x9000, fun w => .sneReg (fieldX w) (fieldY w)⟩,
    ⟨0xF000, 0xD000, fun w => .drw (fieldX w) (fieldY w) (fieldN w)⟩ ]

/-- Rows with one register: format XF (R73). -/
def opcodeRowsXF : List OpcodeRow :=
  [ ⟨0xF0FF, 0xE09E, fun w => .skp (fieldX w)⟩,
    ⟨0xF0FF, 0xE0A1, fun w => .sknp (fieldX w)⟩,
    ⟨0xF0FF, 0xF007, fun w => .ldFromDt (fieldX w)⟩,
    ⟨0xF0FF, 0xF00A, fun w => .ldKey (fieldX w)⟩,
    ⟨0xF0FF, 0xF015, fun w => .ldToDt (fieldX w)⟩,
    ⟨0xF0FF, 0xF018, fun w => .ldToSt (fieldX w)⟩,
    ⟨0xF0FF, 0xF01E, fun w => .addI (fieldX w)⟩ ]

/-- The opcode map, 31 rows (30_encoding.md R74). The order of the rows does not matter: no word
selects two of them (R75). -/
def opcodeTable : List OpcodeRow :=
  opcodeRowsZN ++ opcodeRowsXNN ++ opcodeRowsXY ++ opcodeRowsXF

/-- The instruction of a word, or `none` where no row matches: a decode failure (30_encoding.md R77,
R79). -/
def decodeWord (w : Word) : Option Instr :=
  (opcodeTable.find? (·.selects w)).map (·.build w)

/-- Why bytes are not an instruction. -/
inductive DecodeReject where
  /-- fewer than the two bytes of an instruction word (30_encoding.md R70) -/
  | tooShort
  /-- the word matches no row (30_encoding.md R77) -/
  | noRow (w : Word)
deriving DecidableEq, Repr

/-- The big-endian word of two bytes: the byte at the lower address is the high one (20_memory.md
R54, R57). -/
def bigEndianWord (hi lo : Byte) : Word := hi ++ lo

/-- The instruction at the head of a byte sequence, with the bytes after it. -/
def decodeBytes : List Byte → Except DecodeReject (Instr × List Byte)
  | hi :: lo :: rest =>
    match decodeWord (bigEndianWord hi lo) with
    | some i => .ok (i, rest)
    | none => .error (.noRow (bigEndianWord hi lo))
  | _ => .error .tooShort

/-- The two bytes of a word as the hardware stores them, the first at the lower address (20_memory.md
R57). -/
def wordBytes (w : Word) : List Byte := [w.extractLsb' 8 8, w.extractLsb' 0 8]

/-- Field x in its place. -/
def putX (x : Reg) : Word := BitVec.ofNat 16 x.val <<< 8

/-- Field y in its place. -/
def putY (y : Reg) : Word := BitVec.ofNat 16 y.val <<< 4

/-- Field n in its place. -/
def putN (n : Fin 16) : Word := BitVec.ofNat 16 n.val

/-- Field nn in its place. -/
def putNN (nn : Byte) : Word := nn.setWidth 16

/-- Field nnn in its place. -/
def putNNN (nnn : Addr12) : Word := nnn.setWidth 16

/-- The word of an instruction: the row's match with the fields filled in (30_encoding.md R74, "filling
the fields from the operands", R82). -/
def encode : Instr → Word
  | .nop => 0x0000
  | .cls => 0x00E0
  | .ret => 0x00EE
  | .jp nnn => 0x1000 ||| putNNN nnn
  | .call nnn => 0x2000 ||| putNNN nnn
  | .seImm x nn => 0x3000 ||| putX x ||| putNN nn
  | .sneImm x nn => 0x4000 ||| putX x ||| putNN nn
  | .seReg x y => 0x5000 ||| putX x ||| putY y
  | .ldImm x nn => 0x6000 ||| putX x ||| putNN nn
  | .addImm x nn => 0x7000 ||| putX x ||| putNN nn
  | .ldReg x y => 0x8000 ||| putX x ||| putY y
  | .orReg x y => 0x8001 ||| putX x ||| putY y
  | .andReg x y => 0x8002 ||| putX x ||| putY y
  | .xorReg x y => 0x8003 ||| putX x ||| putY y
  | .addReg x y => 0x8004 ||| putX x ||| putY y
  | .subReg x y => 0x8005 ||| putX x ||| putY y
  | .shr x y => 0x8006 ||| putX x ||| putY y
  | .subn x y => 0x8007 ||| putX x ||| putY y
  | .shl x y => 0x800E ||| putX x ||| putY y
  | .sneReg x y => 0x9000 ||| putX x ||| putY y
  | .ldI nnn => 0xA000 ||| putNNN nnn
  | .jpV0 nnn => 0xB000 ||| putNNN nnn
  | .rnd x nn => 0xC000 ||| putX x ||| putNN nn
  | .drw x y n => 0xD000 ||| putX x ||| putY y ||| putN n
  | .skp x => 0xE09E ||| putX x
  | .sknp x => 0xE0A1 ||| putX x
  | .ldFromDt x => 0xF007 ||| putX x
  | .ldKey x => 0xF00A ||| putX x
  | .ldToDt x => 0xF015 ||| putX x
  | .ldToSt x => 0xF018 ||| putX x
  | .addI x => 0xF01E ||| putX x

/-- The word of an instruction of nbits bits numbered as spec/opcode_table.json numbers them: every
row has one 16-bit word, so it is the low 16 of the nbits bits. -/
def tableWord (nbits w : Nat) : Word := BitVec.ofNat 16 (w % 2 ^ nbits)

/-- The instruction the decoder reads from the bytes of a table word. -/
def decodeTableWord (nbits w : Nat) : Option Instr :=
  match decodeBytes (wordBytes (tableWord nbits w)) with
  | .ok (i, _) => some i
  | .error _ => none

end Sys2Proof
end

