-- ==== Sys2Proof/Machine/Glyph.lean ====
section
/-!
DEFINITION. The parameter GLYPH (00_scope.md R9, 10_state.md R31): its type and its default table.
-/

namespace Sys2Proof.Machine

/-- A value of the parameter GLYPH: 80 bytes, the glyph of digit d at `5*d .. 5*d+4` (10_state.md
R31). -/
abbrev GlyphTable := Vector Byte Config.glyphSize

/-- The default GLYPH (10_state.md R31), one row per digit. PRESUMED, unsafe: the spec gives these bytes
from general knowledge, its source gives none (log entry 2). -/
def defaultGlyph : GlyphTable :=
  (#v[ 0xF0, 0x90, 0x90, 0x90, 0xF0,
      0x20, 0x60, 0x20, 0x20, 0x70,
      0xF0, 0x10, 0xF0, 0x80, 0xF0,
      0xF0, 0x10, 0xF0, 0x10, 0xF0,
      0x90, 0x90, 0xF0, 0x10, 0x10,
      0xF0, 0x80, 0xF0, 0x10, 0xF0,
      0xF0, 0x80, 0xF0, 0x90, 0xF0,
      0xF0, 0x10, 0x20, 0x40, 0x40 ] : Vector Byte 40) ++
  (#v[ 0xF0, 0x90, 0xF0, 0x90, 0xF0,
      0xF0, 0x90, 0xF0, 0x10, 0xF0,
      0xF0, 0x90, 0xF0, 0x90, 0x90,
      0xE0, 0x90, 0xE0, 0x90, 0xE0,
      0xF0, 0x80, 0x80, 0x80, 0xF0,
      0xE0, 0x90, 0x90, 0x90, 0xE0,
      0xF0, 0x80, 0xF0, 0x80, 0xF0,
      0xF0, 0x80, 0xF0, 0x80, 0x80 ] : Vector Byte 40)

end Sys2Proof.Machine
end

