-- ==== Sys2Proof/Machine/Ops.lean ====
section
/-!
DEFINITION. The shared operations: reading and writing memory, registers, the program counter, the
stack and the framebuffer, and taking a fault.
-/

namespace Sys2Proof.Machine

/-! ## Memory (20_memory.md) -/

/-- What an address that memory does not list reads as: its content after RESET, the glyph table and
zeros (10_state.md R37; log entries 2 and 10). -/
def Memory.unlisted (a : Nat) : Byte :=
  if h : a < Config.glyphSize then defaultGlyph[a] else 0

/-- `M[a]`: the byte at an address. -/
def Memory.read : Memory → Nat → Byte
  | [], a => Memory.unlisted a
  | (k, b) :: rest, a => if a = k then b else Memory.read rest a

/-- Puts a byte at an address, keeping the canonical form: the addresses rise, and a byte that an
unlisted address reads as is not listed. -/
def Memory.write : Memory → Nat → Byte → Memory
  | [], a, b => if b = Memory.unlisted a then [] else [(a, b)]
  | (k, c) :: rest, a, b =>
    if a < k then
      if b = Memory.unlisted a then (k, c) :: rest else (a, b) :: (k, c) :: rest
    else if a = k then
      if b = Memory.unlisted a then rest else (a, b) :: rest
    else (k, c) :: Memory.write rest a b

/-- Writes bytes to consecutive addresses from a: the copy loop of LOAD (70_reset_and_hazards.md
R236). -/
def Memory.writeBytes (m : Memory) (a : Nat) : List Byte → Memory
  | [] => m
  | b :: rest => Memory.writeBytes (Memory.write m a b) (a + 1) rest

/-- The canonical form from an address on: addresses at `lo` or above strictly rise and exist, and no
entry equals what its address reads as unlisted. -/
def Memory.wfFrom (lo : Nat) : Memory → Bool
  | [] => true
  | (k, b) :: rest =>
    lo ≤ k && k < Config.memSize && b != Memory.unlisted k && Memory.wfFrom (k + 1) rest

/-- The canonical form of a memory. -/
def Memory.wf (m : Memory) : Bool := Memory.wfFrom 0 m

/-- The range check of a read of n bytes at a, n at least 1: the lowest out-of-range byte address if
`a + n - 1 >= 4096` (20_memory.md R55). Addresses are not masked (R51). -/
def firstOutOfRange (a n : Nat) : Option Nat :=
  if Config.memSize ≤ a + n - 1 then some (max a Config.memSize) else none

/-- The instruction fetch: an odd `pc` is checked before the range, and the two bytes are big-endian
(20_memory.md R54, R55, R57). -/
def fetchWord (m : Memory) (pc : Word) : Except Raised Word :=
  if pc.getLsbD 0 then .error ⟨.misalignedFetch, pc.toNat⟩
  else
    match firstOutOfRange pc.toNat 2 with
    | some a => .error ⟨.memOutOfRange, a⟩
    | none => .ok (bigEndianWord (m.read pc.toNat) (m.read (pc.toNat + 1)))

/-! ## Registers and the program counter (10_state.md R21, R22, R25) -/

/-- `V[x]`. No register is hardwired (10_state.md R21). -/
def State.reg (s : State) (x : Reg) : Byte := s.v[x]

/-- `V[x] <- b`. -/
def State.setReg (s : State) (x : Reg) (b : Byte) : State := { s with v := s.v.set x b }

/-- `V[F] <- f`, the flag write; every meaning does it last (10_state.md R22, 30_encoding.md R81). -/
def State.setFlag (s : State) (f : Byte) : State := s.setReg VF f

/-- `pc <- a`. A target is written as it is; the next fetch checks it (40_control_flow.md R110). -/
def State.setPc (s : State) (a : Word) : State := { s with pc := a }

/-- The fetch's advance of `pc` by 2 (30_encoding.md R80). -/
def State.advance (s : State) : State := s.setPc (s.pc + 2)

/-- `skip`: a further 2, applied after the fetch's own advance (00_scope.md R13, 40_control_flow.md
R109). -/
def State.skipIf (s : State) (c : Bool) : State := if c then s.setPc (s.pc + 2) else s

/-! ## Stack (10_state.md R26, 60_exceptions.md R203) -/

/-- "push writes at `stack[stack_pointer]` then increments"; a push with `sp = 16` raises. -/
def State.push (s : State) (a : Word) : Except Raised State :=
  if h : s.sp.val < Config.stackDepth then
    .ok { s with stack := s.stack.set s.sp.val a, sp := ⟨s.sp.val + 1, Nat.succ_lt_succ h⟩ }
  else .error ⟨.stackOverflow, s.sp.val⟩

/-- "pop decrements then reads", giving the address and the state after it; the entry keeps its value
(92_eei_decisions.md D25); a pop with `sp = 0` raises. -/
def State.pop (s : State) : Except Raised (Word × State) :=
  if h : 0 < s.sp.val then
    .ok (s.stack[s.sp.val - 1], { s with sp := ⟨s.sp.val - 1, by omega⟩ })
  else .error ⟨.stackUnderflow, s.sp.val⟩

/-! ## Framebuffer (10_state.md R30) -/

/-- `FB[col, row]`. -/
def Framebuffer.lit (fb : Framebuffer) (col : Fin 64) (row : Fin 32) : Bool :=
  fb[row].getLsbD col

/-- The cell at a linear index, `col + 64*row` (10_state.md R30). -/
def Framebuffer.litAt (fb : Framebuffer) (k : Fin 2048) : Bool :=
  Framebuffer.lit fb (Fin.ofNat 64 k.val) (Fin.ofNat 32 (k.val / 64))

/-- `FB[col, row] <- not FB[col, row]`. -/
def Framebuffer.flip (fb : Framebuffer) (col : Fin 64) (row : Fin 32) : Framebuffer :=
  fb.set row (fb[row] ^^^ BitVec.twoPow 64 col)

/-- Every cell unlit (43_display.md R170). -/
def Framebuffer.blank : Framebuffer := Vector.replicate 32 0

/-! ## Taking a fault (60_exceptions.md R200 to R206, 30_encoding.md R80) -/

/-- The code of a fault kind (60_exceptions.md R200; the numbers are labels, 92_eei_decisions.md D4). -/
def FaultKind.code : FaultKind → Nat
  | .decodeFailure => 1
  | .misalignedFetch => 2
  | .memOutOfRange => 3
  | .stackOverflow => 4
  | .stackUnderflow => 5
  | .keyIndexOutOfRange => 6

/-- Takes a fault: the state before the STEP, with the latch set to the record (60_exceptions.md R201,
R205). Nothing else changes: `pc` keeps the faulting instruction's address, and there is no handler
to go to. There is no return from a fault (R206); RESET alone clears the latch (`resetCommand`). -/
def State.takeFault (s : State) (word : Option Word) (f : Raised) : State :=
  { s with fault := some ⟨f.kind, s.pc, word, f.info⟩ }

/-- Runs the execute part of an instruction that raises nothing, from the state after the fetch's
advance (30_encoding.md R80). -/
def complete (s : State) (body : State → State) : Answer := .next (body s.advance)

/-- Runs the execute part of an instruction that may raise: on a raise nothing the STEP did remains, and
the fault is taken from the state before the advance (30_encoding.md R80). -/
def attempt (word : Word) (s : State) (body : State → Except Raised State) : Answer :=
  match body s.advance with
  | .ok t => .next t
  | .error f => .next (s.takeFault (some word) f)

end Sys2Proof.Machine
end

