-- ==== Sys2Proof/Machine/Operands.lean ====
section
/-!
DEFINITION. The operand forms: immediates and addresses (30_encoding.md R72), the second register of
9XY0 (40_control_flow.md R107), the sprite rows at `I` (42_index.md R162), the key latches
(44_timers_keys.md), and the draws (00_scope.md R9).
-/

namespace Sys2Proof.Machine

/-- `nnn` zero-extended to 16 bits (30_encoding.md R72). -/
def zext16 {w : Nat} (a : BitVec w) : Word := a.setWidth 16

/-- The second operand of 9XY0, for each value of `P_9XY0` (40_control_flow.md R107). -/
def sneSecond (p : Config.SneSource) (s : State) (x y : Reg) : Byte :=
  match p with
  | .table => s.reg y
  | .reference => s.reg x

/-- The first row of an n-row sprite that lies out of range, as its address `I + r`, untruncated
(43_display.md R171). -/
def spriteRowOutOfRange (i : Word) (n : Nat) : Option Nat :=
  ((List.range n).map (i.toNat + ·)).find? (Config.memSize ≤ ·)

/-- The n row bytes of a sprite, `MemRead(I + r, 1)` (43_display.md R171). -/
def spriteRows (m : Memory) (i : Word) (n : Nat) : List Byte :=
  (List.range n).map fun r => m.read (i.toNat + r)

/-- The key latch a register names; 16 or more raises (44_timers_keys.md R180, R181). -/
def State.keyNamed (s : State) (b : Byte) : Except Raised Bool :=
  if h : b.toNat < 16 then .ok s.keys[b.toNat]
  else .error ⟨.keyIndexOutOfRange, b.toNat⟩

/-- The indices of the keys that are set, rising. -/
def State.pressedKeys (s : State) : List (Fin 16) :=
  (List.finRange 16).filter (s.keys[·])

/-- The draw `keysel` among the set keys `k :: ks`: the one that is set if there is one, else whichever
the free value picks (44_timers_keys.md R184). -/
def pickKey (draw : Nat) (k : Fin 16) (ks : List (Fin 16)) : Fin 16 :=
  match ks with
  | [] => k
  | _ :: _ => (k :: ks).getD (draw % (ks.length + 1)) k

/-- A key index as a register value. -/
def keyByte (k : Fin 16) : Byte := BitVec.ofNat 8 k.val

/-- The state after a value of the draw `rnd` is taken (41_alu.md R141). -/
def State.drewRnd (s : State) : State := { s with rndDraws := s.rndDraws + 1 }

/-- The state after a value of the draw `keysel` is taken (44_timers_keys.md R183). -/
def State.drewKeysel (s : State) : State := { s with keyselDraws := s.keyselDraws + 1 }

end Sys2Proof.Machine
end

