-- ==== Sys2Proof/Machine/Alu.lean ====
section
/-!
DEFINITION. The register and ALU instructions (41_alu.md R130 to R143): operands are read first, V[x]
is written next, VF last.
-/

namespace Sys2Proof.Machine

/-- A result written to V[x], no flag (41_alu.md R143). -/
def writeResult (s : State) (x : Reg) (result : State → Byte) : Answer :=
  complete s fun t => t.setReg x (result t)

/-- A result written to V[x], then a flag to VF, both computed from the registers before either write
(41_alu.md, introduction; 30_encoding.md R81). -/
def writeResultAndFlag (s : State) (x : Reg) (result flag : State → Byte) : Answer :=
  complete s fun t => (t.setReg x (result t)).setFlag (flag t)

/-- 6XNN `LD Vx, nn` (R130). -/
def execLdImm (x : Reg) (nn : Byte) (s : State) : Answer := writeResult s x fun _ => nn

/-- 7XNN `ADD Vx, nn` (R131): no flag effect. -/
def execAddImm (x : Reg) (nn : Byte) (s : State) : Answer := writeResult s x fun t => t.reg x + nn

/-- 8XY0 `LD Vx, Vy` (R132). -/
def execLdReg (x y : Reg) (s : State) : Answer := writeResult s x fun t => t.reg y

/-- 8XY1 `OR Vx, Vy` (R133). -/
def execOrReg (x y : Reg) (s : State) : Answer := writeResult s x fun t => t.reg x ||| t.reg y

/-- 8XY2 `AND Vx, Vy` (R134). -/
def execAndReg (x y : Reg) (s : State) : Answer := writeResult s x fun t => t.reg x &&& t.reg y

/-- 8XY3 `XOR Vx, Vy` (R135). -/
def execXorReg (x y : Reg) (s : State) : Answer := writeResult s x fun t => t.reg x ^^^ t.reg y

/-- 8XY4 `ADD Vx, Vy` (R136): VF is the carry. -/
def execAddReg (x y : Reg) (s : State) : Answer :=
  writeResultAndFlag s x (fun t => t.reg x + t.reg y) (fun t => carryFlag (t.reg x) (t.reg y))

/-- 8XY5 `SUB Vx, Vy` (R137): VF is 1 when V[x] - V[y] does not borrow. -/
def execSubReg (x y : Reg) (s : State) : Answer :=
  writeResultAndFlag s x (fun t => t.reg x - t.reg y) (fun t => notBorrowFlag (t.reg x) (t.reg y))

/-- 8XY6 `SHR Vx, Vy` (R138): V[x] is shifted; V[y] is not used. -/
def execShr (x _y : Reg) (s : State) : Answer :=
  writeResultAndFlag s x (fun t => t.reg x >>> 1) (fun t => shiftedOutRight (t.reg x))

/-- 8XY7 `SUBN Vx, Vy` (R139): VF is 1 when V[y] - V[x] does not borrow. -/
def execSubn (x y : Reg) (s : State) : Answer :=
  writeResultAndFlag s x (fun t => t.reg y - t.reg x) (fun t => notBorrowFlag (t.reg y) (t.reg x))

/-- 8XYE `SHL Vx, Vy` (R140): V[x] is shifted; V[y] is not used. -/
def execShl (x _y : Reg) (s : State) : Answer :=
  writeResultAndFlag s x (fun t => t.reg x <<< 1) (fun t => shiftedOutLeft (t.reg x))

/-- CXNN for a given source of the draw `rnd` (R141): one draw is taken on every execution. -/
def rndWith (draw : Nat → Byte) (x : Reg) (nn : Byte) (s : State) : Answer :=
  complete s fun t => (t.setReg x (draw t.rndDraws &&& nn)).drewRnd

/-- CXNN `RND Vx, nn` (R141): the draw is a free value (log entry 3). -/
def execRnd (x : Reg) (nn : Byte) (s : State) : Answer := rndWith Config.rnd x nn s

end Sys2Proof.Machine
end

