-- ==== Sys2Proof/Machine/ControlFlow.lean ====
section
/-!
DEFINITION. The control flow instructions (40_control_flow.md R100 to R111). In each body the state
is the one after the fetch's advance, as in the spec's pseudocode.
-/

namespace Sys2Proof.Machine

/-- 0000 `NOP` (R100). -/
def execNop (s : State) : Answer := complete s fun t => t

/-- 00EE `RET` (R101). -/
def execRet (s : State) : Answer :=
  attempt (encode .ret) s fun t => t.pop.map fun (a, u) => u.setPc a

/-- 1NNN `JP nnn` (R102). -/
def execJp (nnn : Addr12) (s : State) : Answer := complete s fun t => t.setPc (zext16 nnn)

/-- 2NNN `CALL nnn` (R103): the pushed value is `pc` after the advance. -/
def execCall (nnn : Addr12) (s : State) : Answer :=
  attempt (encode (.call nnn)) s fun t => (t.push t.pc).map (·.setPc (zext16 nnn))

/-- 3XNN `SE Vx, nn` (R104). -/
def execSeImm (x : Reg) (nn : Byte) (s : State) : Answer :=
  complete s fun t => t.skipIf (t.reg x == nn)

/-- 4XNN `SNE Vx, nn` (R105). -/
def execSneImm (x : Reg) (nn : Byte) (s : State) : Answer :=
  complete s fun t => t.skipIf (t.reg x != nn)

/-- 5XY0 `SE Vx, Vy` (R106). -/
def execSeReg (x y : Reg) (s : State) : Answer :=
  complete s fun t => t.skipIf (t.reg x == t.reg y)

/-- 9XY0 for a given value of `P_9XY0` (R107). -/
def sneRegWith (p : Config.SneSource) (x y : Reg) (s : State) : Answer :=
  complete s fun t => t.skipIf (t.reg x != sneSecond p t x y)

/-- 9XY0 `SNE Vx, Vy` (R107), for the machine's `P_9XY0`, which is open (log entry 1). -/
def execSneReg (x y : Reg) (s : State) : Answer := sneRegWith Config.p9xy0 x y s

/-- BNNN `JP V0, nnn` (R108): the sum is not masked to 12 bits. -/
def execJpV0 (nnn : Addr12) (s : State) : Answer :=
  complete s fun t => t.setPc (zext16 (t.reg V0) + zext16 nnn)

end Sys2Proof.Machine
end

