-- ==== Sys2Proof/Machine/Display.lean ====
section
/-!
DEFINITION. The display instructions (43_display.md R170 to R175). The loops over rows and columns are
those of R171's pseudocode; each carries the framebuffer and the collision found so far.
-/

namespace Sys2Proof.Machine

/-- 00E0 `CLS` (R170). -/
def execCls (s : State) : Answer := complete s fun t => { t with fb := Framebuffer.blank }

/-- The pixel at column offset c of a row byte: bit 7 is the leftmost (R172). -/
def spriteBit (bits : Byte) (c : Nat) : Bool := bits.getLsbD (7 - c)

/-- The framebuffer so far and whether a lit cell was turned unlit. -/
abbrev DrawState := Framebuffer × Bool

/-- One pixel: a set bit XORs its cell, wrapped in both axes independently (R171, R173); a clear bit
leaves it. -/
def drawPixel (ox oy : Nat) (bits : Byte) (r : Nat) (acc : DrawState) (c : Nat) : DrawState :=
  if spriteBit bits c then
    let col := Fin.ofNat 64 (ox + c)
    let row := Fin.ofNat 32 (oy + r)
    (Framebuffer.flip acc.1 col row, acc.2 || Framebuffer.lit acc.1 col row)
  else acc

/-- One row: the pixels at column offsets 0 to 7. -/
def drawRow (ox oy : Nat) (acc : DrawState) (row : Byte × Nat) : DrawState :=
  (List.range 8).foldl (drawPixel ox oy row.1 row.2) acc

/-- All rows, each with its row offset. -/
def drawSprite (ox oy : Nat) (rows : List Byte) (fb : Framebuffer) : DrawState :=
  rows.zipIdx.foldl (drawRow ox oy) (fb, false)

/-- DXYN `DRW Vx, Vy, n` (R171): the origin and the rows are read, every row address is checked before a
cell changes, and the collision goes to VF last. -/
def execDrw (x y : Reg) (n : Fin 16) (s : State) : Answer :=
  attempt (encode (.drw x y n)) s fun t =>
    match spriteRowOutOfRange t.i n with
    | some a => .error ⟨.memOutOfRange, a⟩
    | none =>
      let drawn := drawSprite ((t.reg x).toNat % 64) ((t.reg y).toNat % 32)
        (spriteRows t.mem t.i n) t.fb
      .ok (State.setFlag { t with fb := drawn.1 } (flagByte drawn.2))

end Sys2Proof.Machine
end

