-- ==== Sys2Proof/Machine/Index.lean ====
section
/-!
DEFINITION. The index register instructions (42_index.md R160, R161).
-/

namespace Sys2Proof.Machine

/-- ANNN `LD I, nnn` (R160). -/
def execLdI (nnn : Addr12) (s : State) : Answer := complete s fun t => { t with i := zext16 nnn }

/-- FX1E `ADD I, Vx` (R161): wraps at 16 bits, VF is unchanged, no range check. -/
def execAddI (x : Reg) (s : State) : Answer :=
  complete s fun t => { t with i := t.i + zext16 (t.reg x) }

end Sys2Proof.Machine
end

