-- ==== Sys2Proof/Machine/TimersKeys.lean ====
section
/-!
DEFINITION. The key and timer instructions (44_timers_keys.md R180 to R187). No instruction writes a
key latch (10_state.md R29).
-/

namespace Sys2Proof.Machine

/-- EX9E `SKP Vx` (R180). -/
def execSkp (x : Reg) (s : State) : Answer :=
  attempt (encode (.skp x)) s fun t => (t.keyNamed (t.reg x)).map fun pressed => t.skipIf pressed

/-- EXA1 `SKNP Vx` (R181). -/
def execSknp (x : Reg) (s : State) : Answer :=
  attempt (encode (.sknp x)) s fun t => (t.keyNamed (t.reg x)).map fun pressed => t.skipIf (!pressed)

/-- FX07 `LD Vx, DT` (R182). -/
def execLdFromDt (x : Reg) (s : State) : Answer := complete s fun t => t.setReg x t.dt

/-- FX0A for a given source of the draw `keysel` (R183): with a key set its index is recorded; with none
`pc` goes back by 2, so the same instruction is fetched again (R185). -/
def ldKeyWith (draw : Nat → Nat) (x : Reg) (s : State) : Answer :=
  complete s fun t =>
    match t.pressedKeys with
    | k :: ks => (t.setReg x (keyByte (pickKey (draw t.keyselDraws) k ks))).drewKeysel
    | [] => t.setPc (t.pc - 2)

/-- FX0A `LD Vx, K` (R183): the draw is a free value (log entry 4). -/
def execLdKey (x : Reg) (s : State) : Answer := ldKeyWith Config.keysel x s

/-- FX15 `LD DT, Vx` (R186). -/
def execLdToDt (x : Reg) (s : State) : Answer := complete s fun t => { t with dt := t.reg x }

/-- FX18 `LD ST, Vx` (R187). -/
def execLdToSt (x : Reg) (s : State) : Answer := complete s fun t => { t with st := t.reg x }

end Sys2Proof.Machine
end

