-- ==== Sys2Proof/Machine/Fetch.lean ====
section
/-!
DEFINITION. The fetch and decode half of a STEP (30_encoding.md R80), and placing a word where the
next STEP fetches.
-/

namespace Sys2Proof.Machine

/-- Fetches and decodes the instruction at `pc`, or gives the state in which the fault is taken: a fault
of the fetch records no word, a decode failure the raw word as word and info (30_encoding.md R79, R80;
60_exceptions.md R201, R204). -/
def fetchDecode (s : State) : Except State Instr :=
  match fetchWord s.mem s.pc with
  | .error f => .error (s.takeFault none f)
  | .ok w =>
    match decodeWord w with
    | none => .error (s.takeFault (some w) ⟨.decodeFailure, w.toNat⟩)
    | some i => .ok i

/-- Where the next STEP can fetch a word: `pc`, or the program base where `pc` is odd or out of range
(log entry 9). -/
def fetchablePc (pc : Word) : Word :=
  if pc.getLsbD 0 || Config.memSize ≤ pc.toNat + 1 then BitVec.ofNat 16 Config.programBase else pc

/-- The state with a word stored at a fetchable `pc` and no fault latched. -/
def State.placeWord (s : State) (w : Word) : State :=
  let pc := fetchablePc s.pc
  { s with mem := s.mem.writeBytes pc.toNat (wordBytes w), pc := pc, fault := none }

end Sys2Proof.Machine
end

