-- ==== Sys2Proof/Machine/Step.lean ====
section
/-!
DEFINITION. STEP: "exactly one fetch+decode+execute cycle" (30_encoding.md R80), and the placing of one
instruction for the host's question.
-/

namespace Sys2Proof.Machine

/-- STEP (30_encoding.md R80). While a fault is latched it changes nothing (60_exceptions.md R205). -/
def step (s : State) : Host.Outcome State Fault Refusal :=
  match s.fault with
  | some _ => .next s
  | none =>
    match fetchDecode s with
    | .error t => .next t
    | .ok i => exec i s

/-- s with one instruction stored where the next STEP fetches (log entry 9). -/
def State.withFetchWord (s : State) (nbits w : Nat) : State := s.placeWord (tableWord nbits w)

end Sys2Proof.Machine
end

