-- ==== Sys2Proof/WellFormed.lean ====
section
/-!
DEFINITION. The checks on what comes from outside the machine: an instruction word, a program image
and a key index. An `Instr` needs none: each operand has the type of its field (30_encoding.md R72).
The check on words is written from the prose map R76, major nibble by major nibble, and not from
the mask and match table the decoder uses; that the two agree is a claim.
-/

namespace Sys2Proof

/-- The words that decode, by major nibble (30_encoding.md R76); every other word is illegal (R77). -/
def wordWellFormed (w : Word) : Bool :=
  let low := (w.extractLsb' 0 8).toNat
  let d := (w.extractLsb' 0 4).toNat
  match (w.extractLsb' 12 4).toNat with
  | 0x0 => w == 0x0000#16 || w == 0x00E0#16 || w == 0x00EE#16
  | 0x5 => d == 0
  | 0x8 => d ≤ 7 || d == 0xE
  | 0x9 => d == 0
  | 0xE => low == 0x9E || low == 0xA1
  | 0xF => low == 0x07 || low == 0x0A || low == 0x15 || low == 0x18 || low == 0x1E
  | _ => true

/-- A program image LOAD accepts: at most 3584 bytes (70_reset_and_hazards.md R236). -/
def imageWellFormed (bytes : List Byte) : Bool :=
  bytes.length ≤ Config.programCapacity

/-- A key index SET_KEY accepts: 0 to 15 (60_exceptions.md R215). -/
def keyIndexWellFormed (k : Nat) : Bool :=
  k < 16

end Sys2Proof
end

