-- ==== Sys2Proof/Machine/Commands.lean ====
section
/-!
DEFINITION. The host's commands (10_state.md R40), each one atomic transition with its output (R41).
-/

namespace Sys2Proof.Machine

/-- The commands (10_state.md R40). -/
inductive Command where
  /-- RESET (70_reset_and_hazards.md R235) -/
  | reset
  /-- LOAD(bytes) (R236) -/
  | load (bytes : List Byte)
  /-- STEP (30_encoding.md R80) -/
  | step
  /-- TICK (60_exceptions.md R210) -/
  | tick
  /-- SET_KEY(i, p) (60_exceptions.md R215) -/
  | setKey (index : Nat) (pressed : Bool)
  /-- READ_FB (60_exceptions.md R216) -/
  | readFb
deriving DecidableEq, Repr

/-- The outputs (10_state.md R41). -/
inductive Response where
  /-- RESET and SET_KEY report nothing -/
  | done
  /-- LOAD's success -/
  | loaded
  /-- LOAD's CAPACITY_ERROR -/
  | capacityError
  /-- the fault status, reported by every STEP -/
  | stepStatus (fault : Option FaultRecord)
  /-- whether the sound-trigger event fired, and the fault status -/
  | tickStatus (soundTrigger : Bool) (fault : Option FaultRecord)
  /-- the grid of READ_FB -/
  | framebuffer (fb : Framebuffer)
deriving DecidableEq, Repr

/-- The reset state of a machine whose GLYPH is g (10_state.md R37). For the default GLYPH it is
`State.reset`. -/
def State.resetWith (g : GlyphTable) : State :=
  { State.reset with mem := Memory.writeBytes [] 0 g.toList }

/-- RESET for a given GLYPH: every element of the state tuple takes its reset value, in every state
(70_reset_and_hazards.md R235). The sources of the draws are outside the state, and RESET does not
reset them (60_exceptions.md R217; log entry 5). -/
def resetCommand (g : GlyphTable) (s : State) : State :=
  { State.resetWith g with rndDraws := s.rndDraws, keyselDraws := s.keyselDraws }

/-- LOAD: copies at most 3584 bytes to 0x200 and changes nothing else, or refuses and changes nothing
(70_reset_and_hazards.md R236). -/
def loadCommand (bytes : List Byte) (s : State) : State × Response :=
  if imageWellFormed bytes then
    ({ s with mem := s.mem.writeBytes Config.programBase bytes }, .loaded)
  else (s, .capacityError)

/-- Decrement if nonzero (60_exceptions.md R210). -/
def countDown (t : Byte) : Byte := if t = 0 then 0 else t - 1

/-- TICK (60_exceptions.md R210): both timers count down, and the sound-trigger event fires when ST was
exactly 1. While a fault is latched it changes nothing and reports no event (R205). -/
def tickCommand (s : State) : State × Response :=
  match s.fault with
  | some f => (s, .tickStatus false (some f))
  | none => ({ s with dt := countDown s.dt, st := countDown s.st }, .tickStatus (s.st == 1) none)

/-- SET_KEY (60_exceptions.md R215): an index of 16 or more has no transition (log entry 14). -/
def setKeyCommand (index : Nat) (pressed : Bool) (s : State) :
    Host.Outcome (State × Response) Fault Refusal :=
  if h : index < 16 then .next ({ s with keys := s.keys.set index pressed }, .done)
  else .refused (.noSuchKey index)

/-- STEP with its status (10_state.md R41). -/
def stepCommand (s : State) : Host.Outcome (State × Response) Fault Refusal :=
  match step s with
  | .next t => .next (t, .stepStatus t.fault)
  | .fault f => .fault f
  | .refused r => .refused r

/-- One command, for a machine whose GLYPH is g (10_state.md R40). -/
def commandWith (g : GlyphTable) (c : Command) (s : State) :
    Host.Outcome (State × Response) Fault Refusal :=
  match c with
  | .reset => .next (resetCommand g s, .done)
  | .load bytes => .next (loadCommand bytes s)
  | .step => stepCommand s
  | .tick => .next (tickCommand s)
  | .setKey index pressed => setKeyCommand index pressed s
  | .readFb => .next (s, .framebuffer s.fb)

/-- One command, for the default GLYPH. -/
def command (c : Command) (s : State) : Host.Outcome (State × Response) Fault Refusal :=
  commandWith defaultGlyph c s

/-- A schedule of commands, in any order the host chooses (70_reset_and_hazards.md R246), with the
outputs in order. -/
def runCommands (g : GlyphTable) :
    List Command → State → Host.Outcome (State × List Response) Fault Refusal
  | [], s => .next (s, [])
  | c :: rest, s =>
    match commandWith g c s with
    | .fault f => .fault f
    | .refused r => .refused r
    | .next (t, out) =>
      match runCommands g rest t with
      | .next (u, outs) => .next (u, out :: outs)
      | .fault f => .fault f
      | .refused r => .refused r

/-- The launch premise: the state reached by RESET then LOAD (70_reset_and_hazards.md R241). -/
def launch (g : GlyphTable) (bytes : List Byte) : State := (loadCommand bytes (State.resetWith g)).1

end Sys2Proof.Machine
end

