-- ==== Sys2Proof/Safety.lean ====
section
/-!
DEFINITION. The terms claims use: the end of a run (70_reset_and_hazards.md R240), waiting for a key
(44_timers_keys.md R185), and the invariant of the machine (10_state.md R36).
-/

namespace Sys2Proof.Machine

/-- Halted at a: `pc = a`, no fault, and the word fetched at a jumps to a (70_reset_and_hazards.md
R240). The hardware has no halted state: it is a state that a STEP leaves unchanged. -/
structure State.HaltedAt (s : State) (a : Addr12) : Prop where
  atA : s.pc = zext16 a
  noFault : s.fault = none
  jumpsToSelf : fetchWord s.mem s.pc = .ok (encode (.jp a))

/-- The run has ended: faulted or halted (70_reset_and_hazards.md R240). -/
def State.Ended (s : State) : Prop := s.fault.isSome ∨ ∃ a, s.HaltedAt a

/-- Waiting for a key: no fault, no key set, and the instruction at `pc` is FX0A
(44_timers_keys.md R185). It is not an end of a run (70_reset_and_hazards.md R240). -/
structure State.WaitsForKey (s : State) (x : Reg) : Prop where
  noFault : s.fault = none
  noKey : ∀ k : Fin 16, s.keys[k] = false
  atWait : fetchDecode s = .ok (.ldKey x)

/-- What every reachable state satisfies. `sp` in [0,16] (10_state.md R36) needs no clause: its type
says it. -/
structure State.Invariant (s : State) : Prop where
  /-- no instruction writes a `pc` above 0x10FE (40_control_flow.md R111) -/
  pcBound : s.pc.toNat ≤ 0x10FE
  /-- an outstanding return address is even and lies in 2 to 0x1000, for a CALL pushes `a0 + 2` with
  `a0` even (40_control_flow.md R101) -/
  returnAddresses : ∀ j : Fin 16, j.val < s.sp.val →
    (s.stack[j]).toNat % 2 = 0 ∧ 2 ≤ (s.stack[j]).toNat ∧ (s.stack[j]).toNat ≤ 0x1000
  /-- memory is in its canonical form -/
  memWf : s.mem.wf = true
  /-- while faulted, `pc` still holds the faulting instruction's address (60_exceptions.md R205) -/
  faultAddr : ∀ f, s.fault = some f → f.addr = s.pc

end Sys2Proof.Machine
end

