-- ==== Sys2Proof/Certificates/Slice0/Obligations.lean ====
section
/-!
DEFINITION. The statements. Next states are written out as records of the state before, with the values
of the spec's pseudocode, so an equation says the result, the frame and that the instruction completes.
The terms shared by several statements come first (Sys2Proof.Claims).
-/

open Sys2Proof Sys2Proof.Machine

/-! ## Shared terms -/

/-- Field x of a word, by arithmetic (30_encoding.md R72). -/
def Sys2Proof.Claims.wordX (w : Word) : Reg := Fin.ofNat 16 (w.toNat / 256)

/-- Field y of a word, by arithmetic. -/
def Sys2Proof.Claims.wordY (w : Word) : Reg := Fin.ofNat 16 (w.toNat / 16)

/-- Field n of a word, by arithmetic. -/
def Sys2Proof.Claims.wordN (w : Word) : Fin 16 := Fin.ofNat 16 w.toNat

/-- Field nn of a word, by arithmetic. -/
def Sys2Proof.Claims.wordNN (w : Word) : Byte := BitVec.ofNat 8 w.toNat

/-- Field nnn of a word, by arithmetic. -/
def Sys2Proof.Claims.wordNNN (w : Word) : Addr12 := BitVec.ofNat 12 w.toNat

open Sys2Proof.Claims

/-- Every word with this mask and match decodes to this instruction of its fields: an instruction rule's
"Encoding" item (00_scope.md R14). -/
def Sys2Proof.Claims.Encodes (mask pattern : Word) (i : Word → Instr) : Prop :=
  ∀ w : Word, w &&& mask = pattern → decodeWord w = some (i w)

/-- The masks and matches of the opcode map (30_encoding.md R74), in its order. -/
def Sys2Proof.Claims.opcodeMap : List (Word × Word) :=
  [(0xFFFF, 0x0000), (0xFFFF, 0x00E0), (0xFFFF, 0x00EE), (0xF000, 0x1000), (0xF000, 0x2000),
   (0xF000, 0x3000), (0xF000, 0x4000), (0xF00F, 0x5000), (0xF000, 0x6000), (0xF000, 0x7000),
   (0xF00F, 0x8000), (0xF00F, 0x8001), (0xF00F, 0x8002), (0xF00F, 0x8003), (0xF00F, 0x8004),
   (0xF00F, 0x8005), (0xF00F, 0x8006), (0xF00F, 0x8007), (0xF00F, 0x800E), (0xF00F, 0x9000),
   (0xF000, 0xA000), (0xF000, 0xB000), (0xF000, 0xC000), (0xF000, 0xD000), (0xF0FF, 0xE09E),
   (0xF0FF, 0xE0A1), (0xF0FF, 0xF007), (0xF0FF, 0xF00A), (0xF0FF, 0xF015), (0xF0FF, 0xF018),
   (0xF0FF, 0xF01E)]

/-- The general registers an instruction may write: the "writes" column of 10_state.md R23. -/
def Sys2Proof.Claims.regsWritten : Instr → List Reg
  | .ldImm x _ | .addImm x _ | .ldReg x _ | .orReg x _ | .andReg x _ | .xorReg x _
  | .rnd x _ | .ldFromDt x | .ldKey x => [x]
  | .addReg x _ | .subReg x _ | .shr x _ | .subn x _ | .shl x _ => [x, VF]
  | .drw _ _ _ => [VF]
  | .nop | .cls | .ret | .jp _ | .call _ | .seImm _ _ | .sneImm _ _ | .seReg _ _ | .sneReg _ _
  | .ldI _ | .jpV0 _ | .skp _ | .sknp _ | .ldToDt _ | .ldToSt _ | .addI _ => []

/-- The flag an arithmetic or shift instruction writes to VF, from the registers before it
(41_alu.md R136 to R140). -/
def Sys2Proof.Claims.aluFlag (s : State) : Instr → Option Byte
  | .addReg x y => some (if 256 ≤ s.v[x].toNat + s.v[y].toNat then 1 else 0)
  | .subReg x y => some (if s.v[x].toNat < s.v[y].toNat then 0 else 1)
  | .shr x _ => some (BitVec.ofNat 8 (s.v[x].toNat % 2))
  | .subn x y => some (if s.v[y].toNat < s.v[x].toNat then 0 else 1)
  | .shl x _ => some (BitVec.ofNat 8 (s.v[x].toNat / 128))
  | _ => none

/-- The instructions that write VF as a flag (10_state.md R22). -/
def Sys2Proof.Claims.writesFlag : Instr → Bool
  | .addReg _ _ | .subReg _ _ | .shr _ _ | .subn _ _ | .shl _ _ | .drw _ _ _ => true
  | _ => false

/-- The destination register x of an instruction that has one (10_state.md R23). -/
def Sys2Proof.Claims.destination : Instr → Option Reg
  | .ldImm x _ | .addImm x _ | .ldReg x _ | .orReg x _ | .andReg x _ | .xorReg x _
  | .addReg x _ | .subReg x _ | .shr x _ | .subn x _ | .shl x _
  | .rnd x _ | .ldFromDt x | .ldKey x => some x
  | _ => none

/-- A set bit of the sprite at I lands on a cell: pixel (c, r) has the cell
`((V[x] mod 64 + c) mod 64, (V[y] mod 32 + r) mod 32)` (43_display.md R173), and bit 7 of a row is its
leftmost pixel (R172). -/
def Sys2Proof.Claims.Covers (s : State) (x y : Reg) (n : Fin 16) (col : Fin 64) (row : Fin 32) : Prop :=
  ∃ c r : Nat, c < 8 ∧ r < n.val ∧
    (s.mem.read (s.i.toNat + r)).getLsbD (7 - c) = true ∧
    col.val = (s.v[x].toNat % 64 + c) % 64 ∧ row.val = (s.v[y].toNat % 32 + r) % 32

/-- Every row of an n-row sprite at I is in range (43_display.md R171). -/
def Sys2Proof.Claims.RowsInRange (s : State) (n : Fin 16) : Prop :=
  ∀ r : Nat, r < n.val → s.i.toNat + r < 4096

/-- The state after k TICKs. -/
def Sys2Proof.Claims.afterTicks : Nat → State → State
  | 0, s => s
  | k + 1, s => afterTicks k (tickCommand s).1

/-! ## Encoding -/

/-- Words written out bit by bit from 30_encoding.md R73 and R74 decode, as bytes in memory order, to the
instructions they stand for, one or more of each format. -/
def Obligations.WrittenWordsDecode : Prop :=
  decodeBytes [0b00000000, 0b00000000] = .ok (.nop, []) ∧
  decodeBytes [0b00000000, 0b11100000] = .ok (.cls, []) ∧
  decodeBytes [0b00000000, 0b11101110] = .ok (.ret, []) ∧
  decodeBytes [0b00011010, 0b10111100] = .ok (.jp 0xABC, []) ∧
  decodeBytes [0b10100010, 0b00001110] = .ok (.ldI 0x20E, []) ∧
  decodeBytes [0b01101010, 0b00101011] = .ok (.ldImm 0xA 0x2B, []) ∧
  decodeBytes [0b10000001, 0b00100101] = .ok (.subReg 1 2, []) ∧
  decodeBytes [0b10000010, 0b00001110] = .ok (.shl 2 0, []) ∧
  decodeBytes [0b11010001, 0b00101111] = .ok (.drw 1 2 15, []) ∧
  decodeBytes [0b11100101, 0b10100001] = .ok (.sknp 5, []) ∧
  decodeBytes [0b11110011, 0b00001010] = .ok (.ldKey 3, []) ∧
  decodeBytes [0b11110000, 0b00101001] = .error (.noRow 0xF029)

/-- Decoding the word of any instruction gives it back, with every operand: no bit of an encoding is
dropped (30_encoding.md sections 1 and 2). -/
def Obligations.DecodeOfEncodeIsTheInstruction : Prop :=
  ∀ i : Instr, decodeWord (encode i) = some i

/-- Encoding what a word decodes to gives the word back: each instruction has one word, so the word a
fault of an instruction records (log entry 7) is the word that was fetched. -/
def Obligations.EncodeOfDecodeIsTheWord : Prop :=
  ∀ (w : Word) (i : Instr), decodeWord w = some i → encode i = w

/-- "Every word that matches no row of rule R74 is illegal" (30_encoding.md R77), and only those: a word
fails to decode exactly when no mask and match of the map selects it. FX29, FX33, FX55 and FX65 are
among them. -/
def Obligations.ExactlyUnmatchedWordsAreIllegal : Prop :=
  (∀ w : Word, decodeWord w = none ↔ ∀ row ∈ opcodeMap, w &&& row.1 ≠ row.2) ∧
  ∀ (w : Word), w &&& 0xF000#16 = 0xF000#16 →
    (w &&& 0x00FF#16 = 0x0029#16 ∨ w &&& 0x00FF#16 = 0x0033#16 ∨ w &&& 0x00FF#16 = 0x0055#16 ∨
      w &&& 0x00FF#16 = 0x0065#16) → decodeWord w = none

/-- No word selects two rows of the decoder's own table (the spec's inference R75, from R74): the first
row found is the only one. -/
def Obligations.NoWordSelectsTwoRows : Prop :=
  ∀ (w : Word) (j k : Fin opcodeTable.length),
    opcodeTable[j].selects w = true → opcodeTable[k].selects w = true → j = k

/-- The decoder, written from the masks of R74, accepts exactly the words of the prose map by major
nibble (the spec's inference R76; `wordWellFormed`). -/
def Obligations.DecoderAgreesWithTheProseMap : Prop :=
  ∀ w : Word, (decodeWord w).isSome = wordWellFormed w

/-! ## Fetch, decode and the STEP -/

/-- The instruction fetch (20_memory.md R54): an odd pc raises first, then a pc whose word does not lie
below 4096; otherwise the two bytes are the high and the low half of the word. -/
def Obligations.FetchReadsBigEndianOrRaises : Prop :=
  ∀ (m : Memory) (pc : Word),
    (pc.toNat % 2 = 1 → fetchWord m pc = .error ⟨.misalignedFetch, pc.toNat⟩) ∧
    (pc.toNat % 2 = 0 → 4096 ≤ pc.toNat + 1 →
      fetchWord m pc = .error ⟨.memOutOfRange, pc.toNat⟩) ∧
    (pc.toNat % 2 = 0 → pc.toNat + 1 < 4096 →
      fetchWord m pc = .ok (BitVec.ofNat 16
        ((m.read pc.toNat).toNat * 256 + (m.read (pc.toNat + 1)).toNat)))

/-- When no fault is latched and the bytes at pc decode to an instruction, STEP is exec of it at that
state (30_encoding.md R80). exec starts from the state before the fetch's advance; each meaning
advances pc itself. -/
def Obligations.StepRunsTheDecodedInstruction : Prop :=
  ∀ (s : State) (i : Instr),
    s.fault = none → s.pc.toNat % 2 = 0 → s.pc.toNat < 4096 →
    decodeBytes [s.mem.read s.pc.toNat, s.mem.read (s.pc.toNat + 1)] = .ok (i, []) →
    step s = exec i s

/-- The order in which a STEP looks for faults (60_exceptions.md R204; the spec's decision D26): an odd pc,
then the range, then the decoding, then the instruction's own; each fetch and decode fault is latched
with the record of R201. -/
def Obligations.StepFaultPriority : Prop :=
  ∀ s : State, s.fault = none →
    (s.pc.toNat % 2 = 1 →
      step s = .next { s with fault := some ⟨.misalignedFetch, s.pc, none, s.pc.toNat⟩ }) ∧
    (s.pc.toNat % 2 = 0 → 4096 ≤ s.pc.toNat →
      step s = .next { s with fault := some ⟨.memOutOfRange, s.pc, none, s.pc.toNat⟩ }) ∧
    ∀ w : Word, fetchWord s.mem s.pc = .ok w →
      (decodeWord w = none →
        step s = .next { s with fault := some ⟨.decodeFailure, s.pc, some w, w.toNat⟩ }) ∧
      ∀ i : Instr, decodeWord w = some i → step s = exec i s

/-- Every STEP, from every state, ends in a next state: no state and no instruction is refused or stops
the model (00_scope.md R7: each command is a transition; log entry 6). -/
def Obligations.EveryStepHasANextState : Prop :=
  ∀ s : State, ∃ t : State, step s = .next t

/-- The host's question: the word placed where the next STEP fetches is what the next STEP fetches, with
no fault latched (log entry 9). -/
def Obligations.PlacedWordIsFetchedNext : Prop :=
  ∀ (s : State) (w : Nat), s.mem.wf = true →
    fetchWord (s.withFetchWord 16 w).mem (s.withFetchWord 16 w).pc = .ok (BitVec.ofNat 16 w) ∧
    (s.withFetchWord 16 w).fault = none

/-! ## Faults -/

/-- The fault kinds of a STEP (60_exceptions.md R200, R201): whenever a STEP from an unfaulted state latches
a record, it is one of the listed cases, with its code, its raiser, its condition and its info, and
`addr` is the address of the instruction. -/
def Obligations.LatchedRecordsAreTheListedKinds : Prop :=
  ∀ (s t : State) (f : FaultRecord),
    s.fault = none → step s = .next t → t.fault = some f →
    f.addr = s.pc ∧
    ((f.kind.code = 2 ∧ s.pc.toNat % 2 = 1 ∧ f.word = none ∧ f.info = s.pc.toNat) ∨
     (f.kind.code = 3 ∧ 4096 ≤ s.pc.toNat + 1 ∧ f.word = none ∧ f.info = s.pc.toNat) ∨
     ∃ w : Word, fetchWord s.mem s.pc = .ok w ∧ f.word = some w ∧
      ((f.kind.code = 1 ∧ decodeWord w = none ∧ f.info = w.toNat) ∨
       (f.kind.code = 3 ∧ ∃ (x y : Reg) (n : Fin 16) (r : Nat), decodeWord w = some (.drw x y n) ∧
          r < n.val ∧ 4096 ≤ s.i.toNat + r ∧ (∀ r' < r, s.i.toNat + r' < 4096) ∧
          f.info = s.i.toNat + r) ∨
       (f.kind.code = 4 ∧ (∃ nnn, decodeWord w = some (.call nnn)) ∧ s.sp.val = 16 ∧ f.info = 16) ∨
       (f.kind.code = 5 ∧ decodeWord w = some .ret ∧ s.sp.val = 0 ∧ f.info = 0) ∨
       (f.kind.code = 6 ∧ ∃ x : Reg, (decodeWord w = some (.skp x) ∨ decodeWord w = some (.sknp x)) ∧
          16 ≤ s.v[x].toNat ∧ f.info = s.v[x].toNat)))

/-- Faults are precise and sticky (60_exceptions.md R205; the spec's decisions D5 and D6). A STEP that
changes the latch changes nothing else; while faulted, STEP and TICK change nothing and report the
record, and SET_KEY, LOAD and READ_FB act as on the unfaulted state and leave the latch; RESET, and no
other command, clears it. -/
def Obligations.FaultsArePreciseAndSticky : Prop :=
  (∀ s t : State, step s = .next t → t.fault ≠ s.fault → t = { s with fault := t.fault }) ∧
  (∀ (g : GlyphTable) (s : State) (f : FaultRecord), s.fault = some f →
    commandWith g .step s = .next (s, .stepStatus (some f)) ∧
    commandWith g .tick s = .next (s, .tickStatus false (some f)) ∧
    (resetCommand g s).fault = none ∧
    (∀ c t out, c ≠ .reset → commandWith g c s = .next (t, out) → t.fault = some f) ∧
    ∀ c t out, c ≠ .reset → c ≠ .step → c ≠ .tick →
      commandWith g c { s with fault := none } = .next (t, out) →
      commandWith g c s = .next ({ t with fault := some f }, out))

/-! ## Invariants -/

/-- The invariant holds in the reset state of every GLYPH. -/
def Obligations.ResetMeetsTheInvariant : Prop :=
  ∀ g : GlyphTable, (State.resetWith g).Invariant

/-- Every STEP keeps the invariant: pc stays at or below 0x10FE, outstanding return addresses are even and
in 2 to 0x1000, memory keeps its canonical form, and a faulted machine's pc is the faulting address
(10_state.md R36; the spec's inferences in 40_control_flow.md R101 and R111). -/
def Obligations.StepKeepsTheInvariant : Prop :=
  ∀ s t : State, s.Invariant → step s = .next t → t.Invariant

/-- Every schedule of commands the host may choose, from the reset state of any GLYPH, ends in a state
that meets the invariant (70_reset_and_hazards.md R246 quantifies over every interleaving). -/
def Obligations.EveryScheduleKeepsTheInvariant : Prop :=
  ∀ (g : GlyphTable) (cs : List Command) (s : State) (outs : List Response),
    runCommands g cs (State.resetWith g) = .next (s, outs) → s.Invariant

/-- No command but LOAD and RESET changes a byte of memory, and LOAD changes none below 0x200: no
instruction writes memory (the spec's inferences 10_state.md R32 and 20_memory.md R53). -/
def Obligations.MemoryIsWrittenOnlyByResetAndLoad : Prop :=
  ∀ (g : GlyphTable) (c : Command) (s t : State) (out : Response), s.mem.wf = true →
    commandWith g c s = .next (t, out) → c ≠ .reset →
    ∀ a : Nat, (a < 0x200 ∨ ∀ bytes, c ≠ .load bytes) → t.mem.read a = s.mem.read a

/-- The key latches change only by SET_KEY (and RESET): no instruction and no TICK writes them
(10_state.md R29). -/
def Obligations.KeysAreWrittenOnlyBySetKey : Prop :=
  ∀ (g : GlyphTable) (c : Command) (s t : State) (out : Response),
    commandWith g c s = .next (t, out) → c ≠ .reset → (∀ k p, c ≠ .setKey k p) → t.keys = s.keys

/-- The canonical form determines memory: two memories in it whose every byte reads alike are equal data
(the model's own form, log entry 10). -/
def Obligations.EqualReadsAreEqualMemories : Prop :=
  ∀ m m' : Memory, m.wf = true → m'.wf = true → (∀ a, m.read a = m'.read a) → m = m'

/-! ## Frames -/

/-- The general registers an instruction writes are those of the "writes" column of 10_state.md R23 (the
spec's own table); every other register keeps its value. -/
def Obligations.OtherGeneralRegistersKeepTheirValues : Prop :=
  ∀ (i : Instr) (s t : State) (r : Reg),
    exec i s = .next t → r ∉ regsWritten i → t.v[r] = s.v[r]

/-- VF as the flag register (10_state.md R22; the spec's decision D15): the listed instructions write it last, so the
flag wins where VF is the destination; every other instruction leaves it unchanged unless VF is its
destination. The collision flag of DXYN is in `DrawTogglesCoveredCells`. -/
def Obligations.FlagRegisterIsWrittenLast : Prop :=
  (∀ (i : Instr) (s : State) (f : Byte), aluFlag s i = some f →
    ∃ t, exec i s = .next t ∧ t.v[VF] = f) ∧
  ∀ (i : Instr) (s t : State), writesFlag i = false → destination i ≠ some VF →
    exec i s = .next t → t.v[VF] = s.v[VF]

/-- What each instruction leaves unchanged beside the general registers: the stack but for CALL, sp but
for CALL and RET, I but for ANNN and FX1E, each timer but for its one writer, the framebuffer but for
CLS and DRW, the latch but for the four kinds that can raise, the draws but for RND and FX0A; the keys
and every byte of memory always. -/
def Obligations.OtherStateKeepsItsValue : Prop :=
  ∀ (i : Instr) (s t : State), exec i s = .next t →
    t.keys = s.keys ∧ (∀ a : Nat, t.mem.read a = s.mem.read a) ∧
    ((∀ nnn, i ≠ .call nnn) → t.stack = s.stack) ∧
    ((∀ nnn, i ≠ .call nnn) → i ≠ .ret → t.sp = s.sp) ∧
    ((∀ nnn, i ≠ .ldI nnn) → (∀ x, i ≠ .addI x) → t.i = s.i) ∧
    ((∀ x, i ≠ .ldToDt x) → t.dt = s.dt) ∧
    ((∀ x, i ≠ .ldToSt x) → t.st = s.st) ∧
    (i ≠ .cls → (∀ x y n, i ≠ .drw x y n) → t.fb = s.fb) ∧
    ((∀ nnn, i ≠ .call nnn) → i ≠ .ret → (∀ x y n, i ≠ .drw x y n) → (∀ x, i ≠ .skp x) →
      (∀ x, i ≠ .sknp x) → t.fault = s.fault) ∧
    ((∀ x nn, i ≠ .rnd x nn) → t.rndDraws = s.rndDraws) ∧
    ((∀ x, i ≠ .ldKey x) → t.keyselDraws = s.keyselDraws)

/-- The framebuffer (10_state.md R30): cell (col, row) has the linear index col + 64*row, only CLS and DRW
write cells, and READ_FB gives the whole grid. -/
def Obligations.FramebufferIsWrittenByClsAndDrw : Prop :=
  (∀ (fb : Framebuffer) (col : Fin 64) (row : Fin 32) (k : Fin 2048),
    k.val = col.val + 64 * row.val → Framebuffer.litAt fb k = Framebuffer.lit fb col row) ∧
  (∀ (i : Instr) (s t : State), exec i s = .next t → i ≠ .cls → (∀ x y n, i ≠ .drw x y n) →
    ∀ col row, Framebuffer.lit t.fb col row = Framebuffer.lit s.fb col row) ∧
  ∀ (g : GlyphTable) (s : State), commandWith g .readFb s = .next (s, .framebuffer s.fb)

/-- No instruction reads ST (10_state.md R28): two states that differ only in ST are taken by a STEP to
states that differ at most in ST. -/
def Obligations.NoInstructionReadsTheSoundTimer : Prop :=
  ∀ (s t : State) (a : Byte), step s = .next t →
    ∃ b : Byte, step { s with st := a } = .next { t with st := b }

/-! ## Control flow -/

/-- `NOP` (40_control_flow.md R100). -/
def Obligations.NopOnlyAdvances : Prop :=
  Encodes 0xFFFF 0x0000 (fun _ => .nop) ∧
  ∀ s : State, exec .nop s = .next { s with pc := s.pc + 2 }

/-- `RET` (40_control_flow.md R101): pops the address, or raises STACK_UNDERFLOW on an empty stack. -/
def Obligations.RetPopsTheReturnAddress : Prop :=
  Encodes 0xFFFF 0x00EE (fun _ => .ret) ∧
  (∀ (s : State) (j : Fin 16), s.sp = j.succ →
    exec .ret s = .next { s with sp := j.castSucc, pc := s.stack[j] }) ∧
  ∀ s : State, s.sp = 0 →
    exec .ret s = .next { s with fault := some ⟨.stackUnderflow, s.pc, some 0x00EE, 0⟩ }

/-- `JP nnn` (40_control_flow.md R102). -/
def Obligations.JumpWritesTheAddress : Prop :=
  Encodes 0xF000 0x1000 (fun w => .jp (wordNNN w)) ∧
  ∀ (nnn : Addr12) (s : State),
    exec (.jp nnn) s = .next { s with pc := BitVec.ofNat 16 nnn.toNat }

/-- `CALL nnn` (40_control_flow.md R103): pushes the address after the call, or raises STACK_OVERFLOW on a
full stack. -/
def Obligations.CallPushesTheNextAddress : Prop :=
  Encodes 0xF000 0x2000 (fun w => .call (wordNNN w)) ∧
  (∀ (nnn : Addr12) (s : State) (j : Fin 16), s.sp = j.castSucc →
    exec (.call nnn) s = .next { s with
      stack := s.stack.set j (s.pc + 2), sp := j.succ, pc := BitVec.ofNat 16 nnn.toNat }) ∧
  ∀ (nnn : Addr12) (s : State), s.sp = 16 →
    exec (.call nnn) s = .next { s with
      fault := some ⟨.stackOverflow, s.pc, some (BitVec.ofNat 16 (0x2000 + nnn.toNat)), 16⟩ }

/-- A CALL, and then a RET in any later state with the same stack and sp as after the CALL, restores pc to
the address after the call, and sp (95_test_vectors.md S9). -/
def Obligations.CallThenRetReturns : Prop :=
  ∀ (nnn : Addr12) (s t u : State), s.sp ≠ 16 → exec (.call nnn) s = .next t →
    u.stack = t.stack → u.sp = t.sp →
    exec .ret u = .next { u with sp := s.sp, pc := s.pc + 2 }

/-- `SE Vx, nn` (40_control_flow.md R104). -/
def Obligations.SkipIfEqualImmediate : Prop :=
  Encodes 0xF000 0x3000 (fun w => .seImm (wordX w) (wordNN w)) ∧
  ∀ (x : Reg) (nn : Byte) (s : State),
    exec (.seImm x nn) s = .next { s with pc := if s.v[x] = nn then s.pc + 4 else s.pc + 2 }

/-- `SNE Vx, nn` (40_control_flow.md R105). -/
def Obligations.SkipIfNotEqualImmediate : Prop :=
  Encodes 0xF000 0x4000 (fun w => .sneImm (wordX w) (wordNN w)) ∧
  ∀ (x : Reg) (nn : Byte) (s : State),
    exec (.sneImm x nn) s = .next { s with pc := if s.v[x] = nn then s.pc + 2 else s.pc + 4 }

/-- `SE Vx, Vy` (40_control_flow.md R106). -/
def Obligations.SkipIfRegistersEqual : Prop :=
  Encodes 0xF00F 0x5000 (fun w => .seReg (wordX w) (wordY w)) ∧
  ∀ (x y : Reg) (s : State),
    exec (.seReg x y) s = .next { s with pc := if s.v[x] = s.v[y] then s.pc + 4 else s.pc + 2 }

/-- `SNE Vx, Vy` (40_control_flow.md R107): both values of the open parameter P_9XY0, and the machine's
own, which is one of them. -/
def Obligations.SkipIfRegistersDifferByParameter : Prop :=
  Encodes 0xF00F 0x9000 (fun w => .sneReg (wordX w) (wordY w)) ∧
  (∀ (x y : Reg) (s : State),
    sneRegWith .table x y s =
      .next { s with pc := if s.v[x] = s.v[y] then s.pc + 2 else s.pc + 4 }) ∧
  (∀ (x y : Reg) (s : State), sneRegWith .reference x y s = .next { s with pc := s.pc + 2 }) ∧
  ∀ (x y : Reg) (s : State),
    exec (.sneReg x y) s = .next { s with
      pc := match Config.p9xy0 with
        | .table => if s.v[x] = s.v[y] then s.pc + 2 else s.pc + 4
        | .reference => s.pc + 2 }

/-- `JP V0, nnn` (40_control_flow.md R108): the sum is not masked to 12 bits. -/
def Obligations.JumpWithOffsetAddsV0 : Prop :=
  Encodes 0xF000 0xB000 (fun w => .jpV0 (wordNNN w)) ∧
  ∀ (nnn : Addr12) (s : State),
    exec (.jpV0 nnn) s = .next { s with pc := BitVec.ofNat 16 (s.v[V0].toNat + nnn.toNat) }

/-- Halted at a jump to itself, any number of STEPs changes nothing (70_reset_and_hazards.md R240). -/
def Obligations.HaltedStepsChangeNothing : Prop :=
  ∀ (s : State) (a : Addr12) (k : Nat), s.HaltedAt a → core.run k s = .next s

/-! ## Register and ALU -/

/-- `LD Vx, nn` and `ADD Vx, nn` (41_alu.md R130, R131). -/
def Obligations.ImmediateLoadAndAdd : Prop :=
  Encodes 0xF000 0x6000 (fun w => .ldImm (wordX w) (wordNN w)) ∧
  Encodes 0xF000 0x7000 (fun w => .addImm (wordX w) (wordNN w)) ∧
  ∀ (x : Reg) (nn : Byte) (s : State),
    exec (.ldImm x nn) s = .next { s with pc := s.pc + 2, v := s.v.set x nn } ∧
    exec (.addImm x nn) s = .next { s with
      pc := s.pc + 2, v := s.v.set x (BitVec.ofNat 8 ((s.v[x].toNat + nn.toNat) % 256)) }

/-- `LD`, `OR`, `AND` and `XOR Vx, Vy` (41_alu.md R132 to R135): no flag is written. -/
def Obligations.CopyAndLogicInstructions : Prop :=
  Encodes 0xF00F 0x8000 (fun w => .ldReg (wordX w) (wordY w)) ∧
  Encodes 0xF00F 0x8001 (fun w => .orReg (wordX w) (wordY w)) ∧
  Encodes 0xF00F 0x8002 (fun w => .andReg (wordX w) (wordY w)) ∧
  Encodes 0xF00F 0x8003 (fun w => .xorReg (wordX w) (wordY w)) ∧
  ∀ (x y : Reg) (s : State),
    exec (.ldReg x y) s = .next { s with pc := s.pc + 2, v := s.v.set x s.v[y] } ∧
    exec (.orReg x y) s = .next { s with pc := s.pc + 2, v := s.v.set x (s.v[x] ||| s.v[y]) } ∧
    exec (.andReg x y) s = .next { s with pc := s.pc + 2, v := s.v.set x (s.v[x] &&& s.v[y]) } ∧
    exec (.xorReg x y) s = .next { s with pc := s.pc + 2, v := s.v.set x (s.v[x] ^^^ s.v[y]) }

/-- `ADD Vx, Vy` (41_alu.md R136): the carry is written to VF last. -/
def Obligations.AddWritesSumThenCarry : Prop :=
  Encodes 0xF00F 0x8004 (fun w => .addReg (wordX w) (wordY w)) ∧
  ∀ (x y : Reg) (s : State),
    exec (.addReg x y) s = .next { s with
      pc := s.pc + 2
      v := (s.v.set x (BitVec.ofNat 8 ((s.v[x].toNat + s.v[y].toNat) % 256))).set VF
        (if 256 ≤ s.v[x].toNat + s.v[y].toNat then 1 else 0) }

/-- `SUB Vx, Vy` and `SUBN Vx, Vy` (41_alu.md R137, R139; the spec's decision D12 for equal operands): VF,
written last, is 0 on a borrow and 1 otherwise. -/
def Obligations.SubtractionsWriteDifferenceThenNotBorrow : Prop :=
  Encodes 0xF00F 0x8005 (fun w => .subReg (wordX w) (wordY w)) ∧
  Encodes 0xF00F 0x8007 (fun w => .subn (wordX w) (wordY w)) ∧
  ∀ (x y : Reg) (s : State),
    exec (.subReg x y) s = .next { s with
      pc := s.pc + 2
      v := (s.v.set x (BitVec.ofNat 8 ((s.v[x].toNat + 256 - s.v[y].toNat) % 256))).set VF
        (if s.v[x].toNat < s.v[y].toNat then 0 else 1) } ∧
    exec (.subn x y) s = .next { s with
      pc := s.pc + 2
      v := (s.v.set x (BitVec.ofNat 8 ((s.v[y].toNat + 256 - s.v[x].toNat) % 256))).set VF
        (if s.v[y].toNat < s.v[x].toNat then 0 else 1) }

/-- `SHR Vx, Vy` and `SHL Vx, Vy` (41_alu.md R138, R140): V[x] is shifted, V[y] is not read, and the bit
shifted out goes to VF last. -/
def Obligations.ShiftsWriteResultThenBitShiftedOut : Prop :=
  Encodes 0xF00F 0x8006 (fun w => .shr (wordX w) (wordY w)) ∧
  Encodes 0xF00F 0x800E (fun w => .shl (wordX w) (wordY w)) ∧
  ∀ (x y : Reg) (s : State),
    exec (.shr x y) s = .next { s with
      pc := s.pc + 2
      v := (s.v.set x (BitVec.ofNat 8 (s.v[x].toNat / 2))).set VF
        (BitVec.ofNat 8 (s.v[x].toNat % 2)) } ∧
    exec (.shl x y) s = .next { s with
      pc := s.pc + 2
      v := (s.v.set x (BitVec.ofNat 8 (s.v[x].toNat * 2 % 256))).set VF
        (BitVec.ofNat 8 (s.v[x].toNat / 128)) }

/-- `RND Vx, nn` (41_alu.md R141): one draw is taken and masked, whatever the source of the draws is. The
counter of the draws is the model's own (log entry 3). -/
def Obligations.RandomByteIsMaskedAndOneDrawTaken : Prop :=
  Encodes 0xF000 0xC000 (fun w => .rnd (wordX w) (wordNN w)) ∧
  (∀ (draw : Nat → Byte) (x : Reg) (nn : Byte) (s : State),
    rndWith draw x nn s = .next { s with
      pc := s.pc + 2, v := s.v.set x (draw s.rndDraws &&& nn), rndDraws := s.rndDraws + 1 }) ∧
  ∀ (x : Reg) (nn : Byte) (s : State),
    exec (.rnd x nn) s = .next { s with
      pc := s.pc + 2, v := s.v.set x (Config.rnd s.rndDraws &&& nn), rndDraws := s.rndDraws + 1 }

/-! ## Index register -/

/-- `LD I, nnn` and `ADD I, Vx` (42_index.md R160, R161): the sum wraps at 16 bits, is not range-checked,
and leaves VF unchanged. -/
def Obligations.IndexLoadAndAdd : Prop :=
  Encodes 0xF000 0xA000 (fun w => .ldI (wordNNN w)) ∧
  Encodes 0xF0FF 0xF01E (fun w => .addI (wordX w)) ∧
  (∀ (nnn : Addr12) (s : State),
    exec (.ldI nnn) s = .next { s with pc := s.pc + 2, i := BitVec.ofNat 16 nnn.toNat }) ∧
  ∀ (x : Reg) (s : State),
    exec (.addI x) s = .next { s with
      pc := s.pc + 2, i := BitVec.ofNat 16 ((s.i.toNat + s.v[x].toNat) % 65536) }

/-! ## Display -/

/-- `CLS` (43_display.md R170): every cell is unlit after it. -/
def Obligations.ClsClearsEveryCell : Prop :=
  Encodes 0xFFFF 0x00E0 (fun _ => .cls) ∧
  ∀ s : State, ∃ fb : Framebuffer, exec .cls s = .next { s with pc := s.pc + 2, fb := fb } ∧
    ∀ col row, Framebuffer.lit fb col row = false

/-- `DRW Vx, Vy, n` with every row in range (43_display.md R171 to R174; the spec's decision D13 for the bit
order): each covered cell is toggled once, no other cell changes, VF is 1 exactly if a covered cell was
lit, and nothing else changes. -/
def Obligations.DrawTogglesCoveredCells : Prop :=
  Encodes 0xF000 0xD000 (fun w => .drw (wordX w) (wordY w) (wordN w)) ∧
  ∀ (x y : Reg) (n : Fin 16) (s : State), RowsInRange s n →
    ∃ (fb : Framebuffer) (coll : Byte),
      exec (.drw x y n) s = .next { s with pc := s.pc + 2, fb := fb, v := s.v.set VF coll } ∧
      (∀ col row, Covers s x y n col row →
        Framebuffer.lit fb col row = !Framebuffer.lit s.fb col row) ∧
      (∀ col row, ¬Covers s x y n col row →
        Framebuffer.lit fb col row = Framebuffer.lit s.fb col row) ∧
      ((∃ col row, Covers s x y n col row ∧ Framebuffer.lit s.fb col row = true) → coll = 1) ∧
      ((¬∃ col row, Covers s x y n col row ∧ Framebuffer.lit s.fb col row = true) → coll = 0)

/-- `DRW` with a row out of range raises MEM_OUT_OF_RANGE with the smallest such address, and changes no
cell and no register (43_display.md R171; the spec's decisions D1 and D24). -/
def Obligations.DrawOutOfRangeRaises : Prop :=
  ∀ (x y : Reg) (n : Fin 16) (s : State) (r : Nat),
    r < n.val → 4096 ≤ s.i.toNat + r → (∀ r' < r, s.i.toNat + r' < 4096) →
    exec (.drw x y n) s = .next { s with
      fault := some ⟨.memOutOfRange, s.pc,
        some (BitVec.ofNat 16 (0xD000 + x.val * 256 + y.val * 16 + n.val)), s.i.toNat + r⟩ }

/-- `DRW` with n = 0 reads no row, changes no cell and sets VF to 0, whatever I holds (the spec's inference
43_display.md R175). -/
def Obligations.DrawOfNoRowsOnlyClearsTheFlag : Prop :=
  ∀ (x y : Reg) (s : State),
    exec (.drw x y 0) s = .next { s with pc := s.pc + 2, v := s.v.set VF 0 }

/-- A sprite drawn twice at the same place clears every cell it lit and restores the framebuffer; drawn
first on a blank screen, its second draw reports VF = 1 when it covers a cell (43_display.md R174). -/
def Obligations.DrawingTwiceRestoresTheScreen : Prop :=
  ∀ (x y : Reg) (n : Fin 16) (s t u : State), RowsInRange s n →
    exec (.drw x y n) s = .next t → exec (.drw x y n) { t with pc := s.pc, v := s.v } = .next u →
    u.fb = s.fb ∧
    ((∀ col row, Framebuffer.lit s.fb col row = false) → (∃ col row, Covers s x y n col row) →
      t.v[VF] = 0 ∧ u.v[VF] = 1)

/-! ## Keys and timers -/

/-- `SKP Vx` and `SKNP Vx` (44_timers_keys.md R180, R181; the spec's decision D8 for 16 or more): the latch
is read as a level and not cleared; a V[x] of 16 or more raises. -/
def Obligations.KeySkipsReadTheLatch : Prop :=
  Encodes 0xF0FF 0xE09E (fun w => .skp (wordX w)) ∧
  Encodes 0xF0FF 0xE0A1 (fun w => .sknp (wordX w)) ∧
  (∀ (x : Reg) (s : State) (k : Fin 16), s.v[x].toNat = k.val →
    exec (.skp x) s = .next { s with pc := if s.keys[k] = true then s.pc + 4 else s.pc + 2 } ∧
    exec (.sknp x) s = .next { s with pc := if s.keys[k] = true then s.pc + 2 else s.pc + 4 }) ∧
  ∀ (x : Reg) (s : State), 16 ≤ s.v[x].toNat →
    exec (.skp x) s = .next { s with
      fault := some ⟨.keyIndexOutOfRange, s.pc, some (BitVec.ofNat 16 (0xE09E + x.val * 256)),
        s.v[x].toNat⟩ } ∧
    exec (.sknp x) s = .next { s with
      fault := some ⟨.keyIndexOutOfRange, s.pc, some (BitVec.ofNat 16 (0xE0A1 + x.val * 256)),
        s.v[x].toNat⟩ }

/-- `LD Vx, DT`, `LD DT, Vx` and `LD ST, Vx` (44_timers_keys.md R182, R186, R187). -/
def Obligations.TimerLoads : Prop :=
  Encodes 0xF0FF 0xF007 (fun w => .ldFromDt (wordX w)) ∧
  Encodes 0xF0FF 0xF015 (fun w => .ldToDt (wordX w)) ∧
  Encodes 0xF0FF 0xF018 (fun w => .ldToSt (wordX w)) ∧
  ∀ (x : Reg) (s : State),
    exec (.ldFromDt x) s = .next { s with pc := s.pc + 2, v := s.v.set x s.dt } ∧
    exec (.ldToDt x) s = .next { s with pc := s.pc + 2, dt := s.v[x] } ∧
    exec (.ldToSt x) s = .next { s with pc := s.pc + 2, st := s.v[x] }

/-- `LD Vx, K` (44_timers_keys.md R183, R184): with a key set, the index of some set key goes to V[x]; with
none, the state is as before, pc at the instruction again. The latches are not changed. The counter of
the draws is the model's own (log entry 4). -/
def Obligations.KeyWaitRecordsASetKeyOrReplays : Prop :=
  Encodes 0xF0FF 0xF00A (fun w => .ldKey (wordX w)) ∧
  (∀ (x : Reg) (s : State), (∃ k : Fin 16, s.keys[k] = true) →
    ∃ k : Fin 16, s.keys[k] = true ∧
      exec (.ldKey x) s = .next { s with
        pc := s.pc + 2, v := s.v.set x (BitVec.ofNat 8 k.val), keyselDraws := s.keyselDraws + 1 }) ∧
  ∀ (x : Reg) (s : State), (∀ k : Fin 16, s.keys[k] = false) → exec (.ldKey x) s = .next s

/-- Any set key can be the one recorded: for each, some source of the draw records it
(44_timers_keys.md R184: "any i with K[i] = true, under no further law"). -/
def Obligations.AnySetKeyCanBeDrawn : Prop :=
  ∀ (x : Reg) (s : State) (k : Fin 16), s.keys[k] = true →
    ∃ draw : Nat → Nat, ldKeyWith draw x s = .next { s with
      pc := s.pc + 2, v := s.v.set x (BitVec.ofNat 8 k.val), keyselDraws := s.keyselDraws + 1 }

/-- While FX0A waits, any number of STEPs changes nothing (44_timers_keys.md R185). -/
def Obligations.WaitingStepsChangeNothing : Prop :=
  ∀ (s : State) (x : Reg) (k : Nat), s.WaitsForKey x → core.run k s = .next s

/-! ## Host commands -/

/-- TICK (60_exceptions.md R210): both timers count down if nonzero, the event fires when ST was exactly 1,
nothing else changes; a faulted machine's TICK changes nothing and reports no event. -/
def Obligations.TickCountsBothTimersDown : Prop :=
  ∀ (g : GlyphTable) (s : State),
    (s.fault = none →
      commandWith g .tick s = .next
        ({ s with dt := BitVec.ofNat 8 (s.dt.toNat - 1), st := BitVec.ofNat 8 (s.st.toNat - 1) },
          .tickStatus (decide (s.st.toNat = 1)) none)) ∧
    ∀ f, s.fault = some f → commandWith g .tick s = .next (s, .tickStatus false (some f))

/-- The delay timer counts down to 0 and stops there, whatever ST holds, and TICKs change only the timers
(the spec's inference 60_exceptions.md R211). -/
def Obligations.DelayTimerStopsAtZero : Prop :=
  ∀ (s : State) (k : Nat), s.fault = none →
    (afterTicks k s).dt.toNat = s.dt.toNat - k ∧
    afterTicks k s = { s with dt := (afterTicks k s).dt, st := (afterTicks k s).st }

/-- ST counts down as DT does, and the sound-trigger event fires on exactly the TICK that takes ST from 1
to 0 (60_exceptions.md R212): among TICKs in a row, on the one numbered by the value ST had, and on no
other. -/
def Obligations.SoundEventFiresExactlyOnce : Prop :=
  ∀ (s : State) (k : Nat), s.fault = none →
    (afterTicks k s).st.toNat = s.st.toNat - k ∧
    (tickCommand (afterTicks k s)).2 = .tickStatus (decide (s.st.toNat = k + 1)) none

/-- SET_KEY (60_exceptions.md R215): K[i] becomes p and nothing else changes, also while faulted; an index
of 16 or more has no transition (the spec's decision D18; the name of the refusal is log entry 14). -/
def Obligations.SetKeyWritesOneLatch : Prop :=
  ∀ (g : GlyphTable) (s : State) (p : Bool),
    (∀ k : Fin 16,
      commandWith g (.setKey k.val p) s = .next ({ s with keys := s.keys.set k p }, .done)) ∧
    ∀ k : Nat, 16 ≤ k → commandWith g (.setKey k p) s = .refused (.noSuchKey k)

/-- LOAD (70_reset_and_hazards.md R236): the bytes are read back from 0x200 on, every other byte and every
other element keep their values; more than 3584 bytes are refused with the state unchanged. -/
def Obligations.LoadCopiesTheImageOrRefuses : Prop :=
  ∀ (g : GlyphTable) (s : State) (bytes : List Byte), s.mem.wf = true →
    (bytes.length ≤ 3584 → ∃ m : Memory,
      commandWith g (.load bytes) s = .next ({ s with mem := m }, .loaded) ∧
      (∀ (j : Nat) (h : j < bytes.length), m.read (0x200 + j) = bytes[j]) ∧
      ∀ a : Nat, (a < 0x200 ∨ 0x200 + bytes.length ≤ a) → m.read a = s.mem.read a) ∧
    (3584 < bytes.length → commandWith g (.load bytes) s = .next (s, .capacityError))

/-- The reset values of the state tuple (10_state.md R37), for every GLYPH, and from every state by RESET
(70_reset_and_hazards.md R235). The last clause, that RESET keeps the counters of the draws, is the
model's choice (log entry 5), after 60_exceptions.md R217: RESET does not reset the random source. -/
def Obligations.ResetValues : Prop :=
  ∀ (g : GlyphTable) (s : State), ∃ t : State,
    commandWith g .reset s = .next (t, .done) ∧
    (∀ r : Reg, t.v[r] = 0) ∧ t.i = 0 ∧ t.pc = 0x200 ∧ (∀ j : Fin 16, t.stack[j] = 0) ∧ t.sp = 0 ∧
    t.dt = 0 ∧ t.st = 0 ∧ (∀ k : Fin 16, t.keys[k] = false) ∧
    (∀ col row, Framebuffer.lit t.fb col row = false) ∧
    (∀ a : Fin 80, t.mem.read a.val = g[a]) ∧ (∀ a : Nat, 80 ≤ a → t.mem.read a = 0) ∧
    t.fault = none ∧
    t = { State.resetWith g with rndDraws := s.rndDraws, keyselDraws := s.keyselDraws }

/-- The machine's reset state is that of the default GLYPH (10_state.md R31; the bytes are the spec's
default from general knowledge, log entry 2). -/
def Obligations.ResetStateHasTheDefaultGlyph : Prop :=
  State.reset = State.resetWith defaultGlyph ∧
  (List.range 5).map State.reset.mem.read = [0xF0, 0x90, 0x90, 0x90, 0xF0] ∧
  (List.range 5).map (fun r => State.reset.mem.read (5 * 0xF + r)) = [0xF0, 0x80, 0xF0, 0x80, 0x80]

/-- A program of two bytes or more is launched with its first word at pc: the first STEP after RESET and
LOAD fetches from 0x200, in memory order (70_reset_and_hazards.md R238, R241). -/
def Obligations.FirstStepFetchesTheProgramsFirstWord : Prop :=
  ∀ (g : GlyphTable) (hi lo : Byte) (rest : List Byte), rest.length + 2 ≤ 3584 →
    (launch g (hi :: lo :: rest)).pc = 0x200 ∧
    fetchWord (launch g (hi :: lo :: rest)).mem (launch g (hi :: lo :: rest)).pc =
      .ok (BitVec.ofNat 16 (hi.toNat * 256 + lo.toNat)) ∧
    launch g (hi :: lo :: rest) =
      { State.resetWith g with mem := (launch g (hi :: lo :: rest)).mem }
end

