-- ==== Sys2Proof/Laws/Decode.lean ====
section
/-!
SUPPORT. The opcode map: no two rows can select one word, so a row that selects a word decides its
decoding; and the fields of a word in which they were put.
-/

namespace Sys2Proof

/-- Two rows conflict in a bit both fix. -/
def OpcodeRow.apart (r q : OpcodeRow) : Bool :=
  r.pattern &&& q.mask != q.pattern &&& r.mask

theorem opcodeTable_apart : opcodeTable.Pairwise (fun r q => r.apart q = true) := by decide

/-- Rows that are apart do not select one word. -/
theorem OpcodeRow.apart_selects {r q : OpcodeRow} {w : Word} (h : r.apart q = true)
    (hr : r.selects w = true) : q.selects w = false := by
  by_contra hq
  simp only [OpcodeRow.selects, beq_iff_eq, Bool.not_eq_false] at hr hq
  simp only [OpcodeRow.apart, bne_iff_ne, ne_eq] at h
  apply h
  rw [← hr, ← hq]
  simp only [BitVec.and_assoc, BitVec.and_comm q.mask r.mask]

theorem find_selects_of_mem {l : List OpcodeRow} {r : OpcodeRow} {w : Word}
    (hl : l.Pairwise (fun r q => r.apart q = true)) (hm : r ∈ l) (hr : r.selects w = true) :
    l.find? (·.selects w) = some r := by
  induction l with
  | nil => cases hm
  | cons q rest ih =>
    rw [List.pairwise_cons] at hl
    rcases List.mem_cons.mp hm with rfl | hm'
    · simp [hr]
    · have hq : q.selects w = false := by
        by_contra hq
        have := OpcodeRow.apart_selects (hl.1 r hm') (by simpa using hq)
        simp [hr] at this
      rw [List.find?_cons_of_neg (by simp [hq])]
      exact ih hl.2 hm'

/-- A row that selects a word decides its decoding. -/
theorem decodeWord_of_row {r : OpcodeRow} {w : Word} (hm : r ∈ opcodeTable)
    (hr : r.selects w = true) : decodeWord w = some (r.build w) := by
  simp [decodeWord, find_selects_of_mem opcodeTable_apart hm hr]

/-- A word decodes by some row of the map, or no row selects it. -/
theorem decodeWord_cases (w : Word) :
    (∃ r ∈ opcodeTable, r.selects w = true ∧ decodeWord w = some (r.build w)) ∨
    ((∀ r ∈ opcodeTable, r.selects w = false) ∧ decodeWord w = none) := by
  by_cases h : ∃ r ∈ opcodeTable, r.selects w = true
  · obtain ⟨r, hm, hr⟩ := h
    exact .inl ⟨r, hm, hr, decodeWord_of_row hm hr⟩
  · push Not at h
    refine .inr ⟨fun r hr => by simpa using h r hr, ?_⟩
    simp only [decodeWord, Option.map_eq_none_iff, List.find?_eq_none]
    exact fun r hr => by simpa using h r hr

/-- A mask is applied to each part of a word. -/
theorem or_and_mask (a b m : Word) : (a ||| b) &&& m = (a &&& m) ||| (b &&& m) := by
  apply BitVec.eq_of_getLsbD_eq
  intro j hj
  simp only [BitVec.getLsbD_and, BitVec.getLsbD_or, Bool.and_or_distrib_right]

/-! What each field reads of each operand in its place, and that the masks of the map drop it. -/

theorem putX_mask (x : Reg) :
    putX x &&& 0xF000#16 = 0 ∧ putX x &&& 0xF00F#16 = 0 ∧ putX x &&& 0xF0FF#16 = 0 := by
  revert x; decide

theorem putX_fields (x : Reg) :
    (putX x).extractLsb' 8 4 = BitVec.ofFin x ∧ (putX x).extractLsb' 4 4 = 0 ∧
      (putX x).extractLsb' 0 4 = 0 ∧ (putX x).extractLsb' 0 8 = 0 := by
  revert x; decide

theorem putY_mask (y : Reg) : putY y &&& 0xF000#16 = 0 ∧ putY y &&& 0xF00F#16 = 0 := by
  revert y; decide

theorem putY_fields (y : Reg) :
    (putY y).extractLsb' 8 4 = 0 ∧ (putY y).extractLsb' 4 4 = BitVec.ofFin y ∧
      (putY y).extractLsb' 0 4 = 0 := by
  revert y; decide

theorem putN_mask (n : Fin 16) : putN n &&& 0xF000#16 = 0 := by
  revert n; decide

theorem putN_fields (n : Fin 16) :
    (putN n).extractLsb' 8 4 = 0 ∧ (putN n).extractLsb' 4 4 = 0 ∧
      (putN n).extractLsb' 0 4 = BitVec.ofFin n := by
  revert n; decide

/-- A zero-extended immediate of at most 12 bits has nothing under the mask of the opcode nibble. -/
theorem setWidth_mask {k : Nat} (a : BitVec k) (hk : k ≤ 12) :
    a.setWidth 16 &&& 0xF000#16 = 0 := by
  apply BitVec.eq_of_getLsbD_eq
  intro j hj
  by_cases h : j < 12
  · have : (0xF000#16).getLsbD j = false := by
      have : ∀ j : Fin 12, (0xF000#16).getLsbD j = false := by decide
      exact this ⟨j, h⟩
    simp [this]
  · simp [BitVec.getLsbD_of_ge a j (by omega)]

theorem putNN_mask (nn : Byte) : putNN nn &&& 0xF000#16 = 0 := setWidth_mask nn (by decide)

theorem putNNN_mask (nnn : Addr12) : putNNN nnn &&& 0xF000#16 = 0 := setWidth_mask nnn (by decide)

theorem putNN_fields (nn : Byte) :
    (putNN nn).extractLsb' 8 4 = 0 ∧ (putNN nn).extractLsb' 0 8 = nn := by
  constructor
  · apply BitVec.eq_of_getLsbD_eq
    intro j hj
    simp [putNN]
  · apply BitVec.eq_of_getLsbD_eq
    intro j hj
    simp [putNN, hj]
    omega

theorem putNNN_fields (nnn : Addr12) : (putNNN nnn).extractLsb' 0 12 = nnn := by
  apply BitVec.eq_of_getLsbD_eq
  intro j hj
  simp [putNNN, hj]
  omega

end Sys2Proof
end

