-- ==== Sys2Proof/Laws/Memory.lean ====
section
/-!
SUPPORT. What memory operations do: reading after writing, and that each keeps the canonical form.
-/

namespace Sys2Proof.Machine.Memory

/-- An address below every listed one reads as unlisted. -/
theorem read_eq_unlisted_of_lt {m : Memory} {lo a : Nat} (h : m.wfFrom lo = true) (ha : a < lo) :
    m.read a = unlisted a := by
  induction m generalizing lo with
  | nil => rfl
  | cons c rest ih =>
    obtain ⟨k, b⟩ := c
    simp only [wfFrom, Bool.and_eq_true, decide_eq_true_eq] at h
    simp only [read]
    rw [if_neg (by omega), ih h.2 (by omega)]

theorem wfFrom_mono {m : Memory} {lo lo' : Nat} (h : m.wfFrom lo = true) (hl : lo' ≤ lo) :
    m.wfFrom lo' = true := by
  cases m with
  | nil => rfl
  | cons c rest =>
    obtain ⟨k, b⟩ := c
    simp only [wfFrom, Bool.and_eq_true, decide_eq_true_eq] at h ⊢
    exact ⟨⟨⟨by omega, h.1.1.2⟩, h.1.2⟩, h.2⟩

/-- Reading after a write. -/
theorem read_write {m : Memory} {lo : Nat} (h : m.wfFrom lo = true) (a b' : Nat) (b : Byte) :
    (m.write a b).read b' = if b' = a then b else m.read b' := by
  induction m generalizing lo with
  | nil =>
    by_cases hb : b = unlisted a <;> by_cases e : b' = a <;> simp [write, read, hb, e]
  | cons c rest ih =>
    obtain ⟨k, c⟩ := c
    have hw := h
    simp only [wfFrom, Bool.and_eq_true, decide_eq_true_eq] at h
    have low : ∀ a', a' ≤ k → Memory.read rest a' = unlisted a' :=
      fun a' ha => read_eq_unlisted_of_lt h.2 (by omega)
    by_cases h1 : a < k
    · by_cases hb : b = unlisted a <;> by_cases e : b' = a <;> simp [write, read, h1, hb, e]
      rw [if_neg (by omega), low a (by omega)]
    · by_cases h2 : a = k
      · subst h2
        by_cases hb : b = unlisted a <;> by_cases e : b' = a <;> simp [write, read, hb, e]
        exact low a (Nat.le_refl a)
      · by_cases e : b' = k
        · subst e
          simp [write, read, h1, h2, Ne.symm h2]
        · simp [write, read, h1, h2, e, ih h.2]

/-- A write at an existing address keeps the canonical form. -/
theorem wfFrom_write {m : Memory} {lo a : Nat} (h : m.wfFrom lo = true) (hlo : lo ≤ a)
    (ha : a < Config.memSize) (b : Byte) : (m.write a b).wfFrom lo = true := by
  induction m generalizing lo with
  | nil =>
    by_cases hb : b = unlisted a <;> simp [write, wfFrom, hb, hlo]
    exact ha
  | cons c rest ih =>
    obtain ⟨k, c⟩ := c
    have hw := h
    simp only [wfFrom, Bool.and_eq_true, decide_eq_true_eq] at h
    simp only [write]
    by_cases h1 : a < k
    · rw [if_pos h1]
      by_cases hb : b = unlisted a
      · rw [if_pos hb]; exact hw
      · rw [if_neg hb]
        simp only [wfFrom, Bool.and_eq_true, decide_eq_true_eq]
        exact ⟨⟨⟨hlo, ha⟩, by simpa using hb⟩, ⟨⟨by omega, h.1.1.2⟩, h.1.2⟩, h.2⟩
    · rw [if_neg h1]
      by_cases h2 : a = k
      · rw [if_pos h2]
        by_cases hb : b = unlisted a
        · rw [if_pos hb]; exact wfFrom_mono h.2 (by omega)
        · rw [if_neg hb]
          simp only [wfFrom, Bool.and_eq_true, decide_eq_true_eq]
          exact ⟨⟨⟨hlo, ha⟩, by simpa using hb⟩, by subst h2; exact h.2⟩
      · rw [if_neg h2]
        simp only [wfFrom, Bool.and_eq_true, decide_eq_true_eq]
        exact ⟨h.1, ih h.2 (by omega)⟩

@[simp] theorem wf_nil : wf [] = true := rfl

theorem wf_write {m : Memory} {a : Nat} (h : m.wf = true) (ha : a < Config.memSize) (b : Byte) :
    (m.write a b).wf = true := wfFrom_write h (Nat.zero_le a) ha b

/-- Reading inside and outside consecutive written bytes. -/
theorem read_writeBytes {m : Memory} (h : m.wf = true) (a : Nat) (bs : List Byte)
    (hfit : a + bs.length ≤ Config.memSize) (c : Nat) :
    (m.writeBytes a bs).read c =
      if hc : a ≤ c ∧ c < a + bs.length then bs[c - a]'(by omega) else m.read c := by
  induction bs generalizing m a with
  | nil =>
    rw [dif_neg (by simp only [List.length_nil]; omega)]
    rfl
  | cons b rest ih =>
    simp only [List.length_cons] at hfit ⊢
    rw [writeBytes, ih (wf_write h (by omega) b) (a + 1) (by omega), read_write h]
    by_cases h1 : a + 1 ≤ c ∧ c < a + 1 + rest.length
    · rw [dif_pos h1, dif_pos (by omega)]
      have : c - a = (c - (a + 1)) + 1 := by omega
      simp [this]
    · rw [dif_neg h1]
      by_cases e : c = a
      · subst e
        simp
      · rw [if_neg e, dif_neg (by omega)]

theorem wf_writeBytes {m : Memory} (h : m.wf = true) (a : Nat) (bs : List Byte)
    (hfit : a + bs.length ≤ Config.memSize) : (m.writeBytes a bs).wf = true := by
  induction bs generalizing m a with
  | nil => exact h
  | cons b rest ih =>
    simp only [List.length_cons] at hfit
    exact ih (wf_write h (by omega) b) (a + 1) (by omega)

end Sys2Proof.Machine.Memory
end

