-- ==== Sys2Proof/Laws/State.lean ====
section
/-!
SUPPORT. One lemma per field and update of State, and what reading a register after a write gives, so
that no proof unfolds a record update.
-/

namespace Sys2Proof.Machine.State

variable (s : State)

@[simp] theorem setReg_v (x : Reg) (b : Byte) : (s.setReg x b).v = s.v.set x b := rfl
@[simp] theorem setReg_i (x : Reg) (b : Byte) : (s.setReg x b).i = s.i := rfl
@[simp] theorem setReg_pc (x : Reg) (b : Byte) : (s.setReg x b).pc = s.pc := rfl
@[simp] theorem setReg_stack (x : Reg) (b : Byte) : (s.setReg x b).stack = s.stack := rfl
@[simp] theorem setReg_sp (x : Reg) (b : Byte) : (s.setReg x b).sp = s.sp := rfl
@[simp] theorem setReg_dt (x : Reg) (b : Byte) : (s.setReg x b).dt = s.dt := rfl
@[simp] theorem setReg_st (x : Reg) (b : Byte) : (s.setReg x b).st = s.st := rfl
@[simp] theorem setReg_keys (x : Reg) (b : Byte) : (s.setReg x b).keys = s.keys := rfl
@[simp] theorem setReg_fb (x : Reg) (b : Byte) : (s.setReg x b).fb = s.fb := rfl
@[simp] theorem setReg_mem (x : Reg) (b : Byte) : (s.setReg x b).mem = s.mem := rfl
@[simp] theorem setReg_fault (x : Reg) (b : Byte) : (s.setReg x b).fault = s.fault := rfl
@[simp] theorem setReg_rndDraws (x : Reg) (b : Byte) : (s.setReg x b).rndDraws = s.rndDraws := rfl
@[simp] theorem setReg_keyselDraws (x : Reg) (b : Byte) : (s.setReg x b).keyselDraws = s.keyselDraws := rfl

@[simp] theorem setFlag_v (f : Byte) : (s.setFlag f).v = s.v.set VF f := rfl
@[simp] theorem setFlag_i (f : Byte) : (s.setFlag f).i = s.i := rfl
@[simp] theorem setFlag_pc (f : Byte) : (s.setFlag f).pc = s.pc := rfl
@[simp] theorem setFlag_stack (f : Byte) : (s.setFlag f).stack = s.stack := rfl
@[simp] theorem setFlag_sp (f : Byte) : (s.setFlag f).sp = s.sp := rfl
@[simp] theorem setFlag_dt (f : Byte) : (s.setFlag f).dt = s.dt := rfl
@[simp] theorem setFlag_st (f : Byte) : (s.setFlag f).st = s.st := rfl
@[simp] theorem setFlag_keys (f : Byte) : (s.setFlag f).keys = s.keys := rfl
@[simp] theorem setFlag_fb (f : Byte) : (s.setFlag f).fb = s.fb := rfl
@[simp] theorem setFlag_mem (f : Byte) : (s.setFlag f).mem = s.mem := rfl
@[simp] theorem setFlag_fault (f : Byte) : (s.setFlag f).fault = s.fault := rfl
@[simp] theorem setFlag_rndDraws (f : Byte) : (s.setFlag f).rndDraws = s.rndDraws := rfl
@[simp] theorem setFlag_keyselDraws (f : Byte) : (s.setFlag f).keyselDraws = s.keyselDraws := rfl

@[simp] theorem setPc_v (a : Word) : (s.setPc a).v = s.v := rfl
@[simp] theorem setPc_i (a : Word) : (s.setPc a).i = s.i := rfl
@[simp] theorem setPc_pc (a : Word) : (s.setPc a).pc = a := rfl
@[simp] theorem setPc_stack (a : Word) : (s.setPc a).stack = s.stack := rfl
@[simp] theorem setPc_sp (a : Word) : (s.setPc a).sp = s.sp := rfl
@[simp] theorem setPc_dt (a : Word) : (s.setPc a).dt = s.dt := rfl
@[simp] theorem setPc_st (a : Word) : (s.setPc a).st = s.st := rfl
@[simp] theorem setPc_keys (a : Word) : (s.setPc a).keys = s.keys := rfl
@[simp] theorem setPc_fb (a : Word) : (s.setPc a).fb = s.fb := rfl
@[simp] theorem setPc_mem (a : Word) : (s.setPc a).mem = s.mem := rfl
@[simp] theorem setPc_fault (a : Word) : (s.setPc a).fault = s.fault := rfl
@[simp] theorem setPc_rndDraws (a : Word) : (s.setPc a).rndDraws = s.rndDraws := rfl
@[simp] theorem setPc_keyselDraws (a : Word) : (s.setPc a).keyselDraws = s.keyselDraws := rfl

@[simp] theorem advance_v : (s.advance).v = s.v := rfl
@[simp] theorem advance_i : (s.advance).i = s.i := rfl
@[simp] theorem advance_pc : (s.advance).pc = s.pc + 2 := rfl
@[simp] theorem advance_stack : (s.advance).stack = s.stack := rfl
@[simp] theorem advance_sp : (s.advance).sp = s.sp := rfl
@[simp] theorem advance_dt : (s.advance).dt = s.dt := rfl
@[simp] theorem advance_st : (s.advance).st = s.st := rfl
@[simp] theorem advance_keys : (s.advance).keys = s.keys := rfl
@[simp] theorem advance_fb : (s.advance).fb = s.fb := rfl
@[simp] theorem advance_mem : (s.advance).mem = s.mem := rfl
@[simp] theorem advance_fault : (s.advance).fault = s.fault := rfl
@[simp] theorem advance_rndDraws : (s.advance).rndDraws = s.rndDraws := rfl
@[simp] theorem advance_keyselDraws : (s.advance).keyselDraws = s.keyselDraws := rfl

@[simp] theorem drewRnd_v : (s.drewRnd).v = s.v := rfl
@[simp] theorem drewRnd_i : (s.drewRnd).i = s.i := rfl
@[simp] theorem drewRnd_pc : (s.drewRnd).pc = s.pc := rfl
@[simp] theorem drewRnd_stack : (s.drewRnd).stack = s.stack := rfl
@[simp] theorem drewRnd_sp : (s.drewRnd).sp = s.sp := rfl
@[simp] theorem drewRnd_dt : (s.drewRnd).dt = s.dt := rfl
@[simp] theorem drewRnd_st : (s.drewRnd).st = s.st := rfl
@[simp] theorem drewRnd_keys : (s.drewRnd).keys = s.keys := rfl
@[simp] theorem drewRnd_fb : (s.drewRnd).fb = s.fb := rfl
@[simp] theorem drewRnd_mem : (s.drewRnd).mem = s.mem := rfl
@[simp] theorem drewRnd_fault : (s.drewRnd).fault = s.fault := rfl
@[simp] theorem drewRnd_rndDraws : (s.drewRnd).rndDraws = s.rndDraws + 1 := rfl
@[simp] theorem drewRnd_keyselDraws : (s.drewRnd).keyselDraws = s.keyselDraws := rfl

@[simp] theorem drewKeysel_v : (s.drewKeysel).v = s.v := rfl
@[simp] theorem drewKeysel_i : (s.drewKeysel).i = s.i := rfl
@[simp] theorem drewKeysel_pc : (s.drewKeysel).pc = s.pc := rfl
@[simp] theorem drewKeysel_stack : (s.drewKeysel).stack = s.stack := rfl
@[simp] theorem drewKeysel_sp : (s.drewKeysel).sp = s.sp := rfl
@[simp] theorem drewKeysel_dt : (s.drewKeysel).dt = s.dt := rfl
@[simp] theorem drewKeysel_st : (s.drewKeysel).st = s.st := rfl
@[simp] theorem drewKeysel_keys : (s.drewKeysel).keys = s.keys := rfl
@[simp] theorem drewKeysel_fb : (s.drewKeysel).fb = s.fb := rfl
@[simp] theorem drewKeysel_mem : (s.drewKeysel).mem = s.mem := rfl
@[simp] theorem drewKeysel_fault : (s.drewKeysel).fault = s.fault := rfl
@[simp] theorem drewKeysel_rndDraws : (s.drewKeysel).rndDraws = s.rndDraws := rfl
@[simp] theorem drewKeysel_keyselDraws : (s.drewKeysel).keyselDraws = s.keyselDraws + 1 := rfl

@[simp] theorem takeFault_v (w : Option Word) (f : Raised) : (s.takeFault w f).v = s.v := rfl
@[simp] theorem takeFault_i (w : Option Word) (f : Raised) : (s.takeFault w f).i = s.i := rfl
@[simp] theorem takeFault_pc (w : Option Word) (f : Raised) : (s.takeFault w f).pc = s.pc := rfl
@[simp] theorem takeFault_stack (w : Option Word) (f : Raised) : (s.takeFault w f).stack = s.stack := rfl
@[simp] theorem takeFault_sp (w : Option Word) (f : Raised) : (s.takeFault w f).sp = s.sp := rfl
@[simp] theorem takeFault_dt (w : Option Word) (f : Raised) : (s.takeFault w f).dt = s.dt := rfl
@[simp] theorem takeFault_st (w : Option Word) (f : Raised) : (s.takeFault w f).st = s.st := rfl
@[simp] theorem takeFault_keys (w : Option Word) (f : Raised) : (s.takeFault w f).keys = s.keys := rfl
@[simp] theorem takeFault_fb (w : Option Word) (f : Raised) : (s.takeFault w f).fb = s.fb := rfl
@[simp] theorem takeFault_mem (w : Option Word) (f : Raised) : (s.takeFault w f).mem = s.mem := rfl
@[simp] theorem takeFault_fault (w : Option Word) (f : Raised) : (s.takeFault w f).fault = some ⟨f.kind, s.pc, w, f.info⟩ := rfl
@[simp] theorem takeFault_rndDraws (w : Option Word) (f : Raised) : (s.takeFault w f).rndDraws = s.rndDraws := rfl
@[simp] theorem takeFault_keyselDraws (w : Option Word) (f : Raised) : (s.takeFault w f).keyselDraws = s.keyselDraws := rfl

@[simp] theorem skipIf_v (c : Bool) : (s.skipIf c).v = s.v := by cases c <;> rfl
@[simp] theorem skipIf_i (c : Bool) : (s.skipIf c).i = s.i := by cases c <;> rfl
@[simp] theorem skipIf_pc (c : Bool) : (s.skipIf c).pc = if c then s.pc + 2 else s.pc := by
  cases c <;> rfl
@[simp] theorem skipIf_stack (c : Bool) : (s.skipIf c).stack = s.stack := by cases c <;> rfl
@[simp] theorem skipIf_sp (c : Bool) : (s.skipIf c).sp = s.sp := by cases c <;> rfl
@[simp] theorem skipIf_dt (c : Bool) : (s.skipIf c).dt = s.dt := by cases c <;> rfl
@[simp] theorem skipIf_st (c : Bool) : (s.skipIf c).st = s.st := by cases c <;> rfl
@[simp] theorem skipIf_keys (c : Bool) : (s.skipIf c).keys = s.keys := by cases c <;> rfl
@[simp] theorem skipIf_fb (c : Bool) : (s.skipIf c).fb = s.fb := by cases c <;> rfl
@[simp] theorem skipIf_mem (c : Bool) : (s.skipIf c).mem = s.mem := by cases c <;> rfl
@[simp] theorem skipIf_fault (c : Bool) : (s.skipIf c).fault = s.fault := by cases c <;> rfl
@[simp] theorem skipIf_rndDraws (c : Bool) : (s.skipIf c).rndDraws = s.rndDraws := by cases c <;> rfl
@[simp] theorem skipIf_keyselDraws (c : Bool) : (s.skipIf c).keyselDraws = s.keyselDraws := by cases c <;> rfl

theorem reg_def (x : Reg) : s.reg x = s.v[x] := rfl

@[simp] theorem setReg_reg (x y : Reg) (b : Byte) :
    (s.setReg x b).reg y = if x = y then b else s.reg y := by
  simp only [reg, setReg, Fin.getElem_fin, Vector.getElem_set, Fin.ext_iff]

@[simp] theorem setFlag_reg (y : Reg) (f : Byte) :
    (s.setFlag f).reg y = if VF = y then f else s.reg y := setReg_reg s VF y f

@[simp] theorem setPc_reg (a : Word) (y : Reg) : (s.setPc a).reg y = s.reg y := rfl
@[simp] theorem advance_reg (y : Reg) : s.advance.reg y = s.reg y := rfl
@[simp] theorem drewRnd_reg (y : Reg) : s.drewRnd.reg y = s.reg y := rfl
@[simp] theorem drewKeysel_reg (y : Reg) : s.drewKeysel.reg y = s.reg y := rfl
@[simp] theorem takeFault_reg (w : Option Word) (f : Raised) (y : Reg) :
    (s.takeFault w f).reg y = s.reg y := rfl
@[simp] theorem skipIf_reg (c : Bool) (y : Reg) : (s.skipIf c).reg y = s.reg y := by
  cases c <;> rfl

/-- A skip as one record update: the form in which the results are stated. -/
theorem skipIf_eq (c : Bool) :
    s.skipIf c = { s with pc := if c then s.pc + 2 else s.pc } := by cases c <;> rfl

end Sys2Proof.Machine.State
end

