-- ==== Sys2Proof/Laws/Ops.lean ====
section
/-!
SUPPORT. What each shared operation of Machine/Ops.lean can do.
-/

namespace Sys2Proof.Machine

/-- The range check of a read of at least one byte. -/
theorem firstOutOfRange_cases {a n : Nat} (hn : 0 < n) :
    (a + n ≤ Config.memSize ∧ firstOutOfRange a n = none) ∨
    (Config.memSize < a + n ∧ firstOutOfRange a n = some (max a Config.memSize)) := by
  unfold firstOutOfRange
  by_cases h : Config.memSize ≤ a + n - 1
  · exact .inr ⟨by omega, if_pos h⟩
  · exact .inl ⟨by omega, if_neg h⟩

/-- The three outcomes of a fetch, and when each holds. -/
theorem fetchWord_cases (m : Memory) (pc : Word) :
    (pc.toNat % 2 = 1 ∧ fetchWord m pc = .error ⟨.misalignedFetch, pc.toNat⟩) ∨
    (pc.toNat % 2 = 0 ∧ Config.memSize ≤ pc.toNat ∧
      fetchWord m pc = .error ⟨.memOutOfRange, pc.toNat⟩) ∨
    (pc.toNat % 2 = 0 ∧ pc.toNat < Config.memSize ∧
      fetchWord m pc = .ok (bigEndianWord (m.read pc.toNat) (m.read (pc.toNat + 1)))) := by
  have hbit : pc.getLsbD 0 = decide (pc.toNat % 2 = 1) := by
    simp [BitVec.getLsbD, Nat.testBit_zero]
  unfold fetchWord
  by_cases ho : pc.toNat % 2 = 1
  · exact .inl ⟨ho, by simp [hbit, ho]⟩
  · have he : pc.toNat % 2 = 0 := by omega
    have hb : pc.getLsbD 0 = false := by rw [hbit, decide_eq_false ho]
    have h4096 : Config.memSize = 4096 := rfl
    simp only [hb, Bool.false_eq_true, if_false]
    rcases firstOutOfRange_cases (a := pc.toNat) (n := 2) (by omega) with ⟨hr, e⟩ | ⟨hr, e⟩
    · exact .inr (.inr ⟨he, by omega, by rw [e]⟩)
    · exact .inr (.inl ⟨he, by omega, by rw [e, Nat.max_eq_left (by omega)]⟩)

/-- A push: the entry is written and counted, or the stack is full and the push raises. -/
theorem State.push_cases (s : State) (a : Word) :
    (∃ h : s.sp.val < 16,
      s.push a = .ok { s with stack := s.stack.set s.sp.val a, sp := ⟨s.sp.val + 1, by omega⟩ }) ∨
    (s.sp.val = 16 ∧ s.push a = .error ⟨.stackOverflow, 16⟩) := by
  unfold State.push
  by_cases h : s.sp.val < Config.stackDepth
  · exact .inl ⟨h, dif_pos h⟩
  · have e : s.sp.val = 16 := by have := s.sp.isLt; simp only [Config.stackDepth] at h; omega
    exact .inr ⟨e, by rw [dif_neg h, e]⟩

/-- A pop: the count falls and the entry is read, or the stack is empty and the pop raises. -/
theorem State.pop_cases (s : State) :
    (∃ h : 0 < s.sp.val,
      s.pop = .ok (s.stack[s.sp.val - 1], { s with sp := ⟨s.sp.val - 1, by omega⟩ })) ∨
    (s.sp.val = 0 ∧ s.pop = .error ⟨.stackUnderflow, 0⟩) := by
  unfold State.pop
  by_cases h : 0 < s.sp.val
  · exact .inl ⟨h, dif_pos h⟩
  · have e : s.sp.val = 0 := by omega
    exact .inr ⟨e, by rw [dif_neg h, e]⟩

@[simp] theorem Framebuffer.lit_blank (col : Fin 64) (row : Fin 32) :
    Framebuffer.lit Framebuffer.blank col row = false := by
  simp [Framebuffer.lit, Framebuffer.blank]

/-- A flip changes its own cell and no other. -/
theorem Framebuffer.lit_flip (fb : Framebuffer) (c c' : Fin 64) (r r' : Fin 32) :
    Framebuffer.lit (Framebuffer.flip fb c r) c' r' =
      if c' = c ∧ r' = r then !Framebuffer.lit fb c' r' else Framebuffer.lit fb c' r' := by
  unfold Framebuffer.lit Framebuffer.flip
  by_cases hr : r' = r
  · subst hr
    by_cases hc : c' = c
    · subst hc
      simp
    · have : c.val ≠ c'.val := fun e => hc (Fin.ext e.symm)
      simp [hc, Ne.symm this]
  · have : r.val ≠ r'.val := fun e => hr (Fin.ext e.symm)
    simp [hr, this]

/-- Two framebuffers with the same cells are equal. -/
theorem Framebuffer.ext_lit {fb fb' : Framebuffer}
    (h : ∀ col row, Framebuffer.lit fb col row = Framebuffer.lit fb' col row) : fb = fb' := by
  apply Vector.ext
  intro r hr
  apply BitVec.eq_of_getLsbD_eq
  intro c hc
  exact h ⟨c, hc⟩ ⟨r, hr⟩

/-- An instruction that raises nothing: the next state is its body's. -/
theorem complete_next {s t : State} {body : State → State} (h : complete s body = .next t) :
    t = body s.advance := by
  simpa [complete] using h.symm

/-- An instruction that may raise: the body's state, or the state before it with the fault latched. -/
theorem attempt_cases (w : Word) (s : State) (body : State → Except Raised State) :
    (∃ t, body s.advance = .ok t ∧ attempt w s body = .next t) ∨
    (∃ f, body s.advance = .error f ∧ attempt w s body = .next (s.takeFault (some w) f)) := by
  unfold attempt
  cases h : body s.advance with
  | ok t => exact .inl ⟨t, rfl, rfl⟩
  | error f => exact .inr ⟨f, rfl, rfl⟩

end Sys2Proof.Machine
end

