-- ==== Sys2Proof/Laws/Display.lean ====
section
/-!
SUPPORT. What drawing a sprite does: it flips a list of cells, none twice (43_display.md R173), so each
cell's new value and the collision are read off the framebuffer before the draw.
-/

namespace Sys2Proof.Machine

/-- A cell of the framebuffer. -/
abbrev FbCell := Fin 64 × Fin 32

/-- Flips the cells of a list in order, noting a lit cell that is turned unlit. -/
def flipCells (cells : List FbCell) (acc : DrawState) : DrawState :=
  cells.foldl
    (fun acc p => (Framebuffer.flip acc.1 p.1 p.2, acc.2 || Framebuffer.lit acc.1 p.1 p.2)) acc

/-- Flipping cells of which none stands twice in the list. -/
theorem flipCells_spec {cells : List FbCell} (hn : cells.Nodup) (fb : Framebuffer) (b : Bool) :
    (∀ c r, Framebuffer.lit (flipCells cells (fb, b)).1 c r =
      (Framebuffer.lit fb c r ^^ decide ((c, r) ∈ cells))) ∧
    (flipCells cells (fb, b)).2 = (b || cells.any fun p => Framebuffer.lit fb p.1 p.2) := by
  induction cells generalizing fb b with
  | nil => simp [flipCells]
  | cons p rest ih =>
    obtain ⟨hp, hr⟩ := List.nodup_cons.mp hn
    obtain ⟨h1, h2⟩ := ih hr (Framebuffer.flip fb p.1 p.2) (b || Framebuffer.lit fb p.1 p.2)
    refine ⟨fun c r => ?_, ?_⟩
    · change Framebuffer.lit (flipCells rest _).1 c r = _
      rw [h1, Framebuffer.lit_flip]
      by_cases e : (c, r) = p
      · subst e
        simp [hp]
      · have : ¬(c = p.1 ∧ r = p.2) := fun ⟨a, b⟩ => e (Prod.ext a b)
        simp [this, e]
    · change (flipCells rest _).2 = _
      rw [h2, List.any_cons, Bool.or_assoc]
      congr 2
      rw [Bool.eq_iff_iff, List.any_eq_true, List.any_eq_true]
      refine exists_congr fun q => and_congr_right fun hq => ?_
      rw [Framebuffer.lit_flip, if_neg]
      rintro ⟨a, b⟩
      exact hp ((Prod.ext a b : q = p) ▸ hq)

/-- The cells a row's set bits land on, from the left. -/
def rowCells (ox oy : Nat) (row : Byte × Nat) : List FbCell :=
  ((List.range 8).filter (spriteBit row.1)).map fun c =>
    (Fin.ofNat 64 (ox + c), Fin.ofNat 32 (oy + row.2))

theorem drawRow_eq (ox oy : Nat) (acc : DrawState) (row : Byte × Nat) :
    drawRow ox oy acc row = flipCells (rowCells ox oy row) acc := by
  simp only [drawRow, flipCells, rowCells, List.foldl_map, List.foldl_filter]
  rfl

/-- The cells all set bits of a sprite land on. -/
def spriteCells (ox oy : Nat) (rows : List Byte) : List FbCell :=
  rows.zipIdx.flatMap (rowCells ox oy)

theorem drawSprite_eq (ox oy : Nat) (rows : List Byte) (fb : Framebuffer) :
    drawSprite ox oy rows fb = flipCells (spriteCells ox oy rows) (fb, false) := by
  simp only [drawSprite, spriteCells, flipCells, List.foldl_flatMap]
  congr 1
  funext acc row
  exact drawRow_eq ox oy acc row

/-- The cell of each set bit, wrapped in both axes independently (43_display.md R173). -/
theorem mem_spriteCells {ox oy : Nat} {rows : List Byte} {p : FbCell} :
    p ∈ spriteCells ox oy rows ↔
      ∃ c r, c < 8 ∧ ∃ h : r < rows.length, spriteBit rows[r] c = true ∧
        p.1.val = (ox + c) % 64 ∧ p.2.val = (oy + r) % 32 := by
  simp only [spriteCells, List.mem_flatMap, rowCells, List.mem_map, List.mem_filter, List.mem_range]
  constructor
  · rintro ⟨⟨b, r⟩, hr, c, ⟨hc, hb⟩, rfl⟩
    obtain ⟨hlt, hget⟩ := List.getElem?_eq_some_iff.mp (List.mem_zipIdx_iff_getElem?.mp hr)
    exact ⟨c, r, hc, hlt, hget ▸ hb, rfl, rfl⟩
  · rintro ⟨c, r, hc, h, hb, h1, h2⟩
    exact ⟨(rows[r], r), List.mem_zipIdx_iff_getElem?.mpr (List.getElem?_eq_getElem h), c, ⟨hc, hb⟩,
      Prod.ext (Fin.ext h1.symm) (Fin.ext h2.symm)⟩

/-- "no two pixels of one sprite land on the same cell" (43_display.md R173). -/
theorem spriteCells_nodup (ox oy : Nat) {rows : List Byte} (hrows : rows.length ≤ 32) :
    (spriteCells ox oy rows).Nodup := by
  refine List.nodup_flatMap.mpr ⟨fun row _ => ?_, ?_⟩
  · refine (List.Nodup.filter _ List.nodup_range).map_on ?_
    intro c hc c' hc' e
    simp only [List.mem_filter, List.mem_range] at hc hc'
    have := congrArg (·.val) (congrArg Prod.fst e)
    simp only [Fin.ofNat] at this
    omega
  · have hlt : rows.zipIdx.Pairwise fun a b => a.2 < b.2 := by
      rw [← List.pairwise_map (f := Prod.snd) (R := (· < ·)), List.zipIdx_map_snd]
      exact List.pairwise_lt_range'
    refine hlt.imp_of_mem ?_
    intro a b ha hb hab
    have hb' := (List.getElem?_eq_some_iff.mp (List.mem_zipIdx_iff_getElem?.mp hb)).1
    intro p hp hp'
    simp only [rowCells, List.mem_map] at hp hp'
    obtain ⟨c, -, rfl⟩ := hp
    obtain ⟨c', -, e⟩ := hp'
    have := congrArg (·.val) (congrArg Prod.snd e)
    simp only [Fin.ofNat] at this
    omega

/-- Drawing a sprite of at most 32 rows: each cell it covers is toggled once, no other cell changes, and
the collision is the OR of the covered cells that were lit (43_display.md R173, R174). -/
theorem drawSprite_spec (ox oy : Nat) {rows : List Byte} (hrows : rows.length ≤ 32)
    (fb : Framebuffer) :
    (∀ c r, Framebuffer.lit (drawSprite ox oy rows fb).1 c r =
      (Framebuffer.lit fb c r ^^ decide ((c, r) ∈ spriteCells ox oy rows))) ∧
    (drawSprite ox oy rows fb).2 =
      (spriteCells ox oy rows).any fun p => Framebuffer.lit fb p.1 p.2 := by
  rw [drawSprite_eq]
  simpa using flipCells_spec (spriteCells_nodup ox oy hrows) fb false

@[simp] theorem spriteRows_length (m : Memory) (i : Word) (n : Nat) :
    (spriteRows m i n).length = n := by simp [spriteRows]

@[simp] theorem spriteRows_getElem (m : Memory) (i : Word) (n r : Nat)
    (h : r < (spriteRows m i n).length) : (spriteRows m i n)[r] = m.read (i.toNat + r) := by
  simp [spriteRows]

end Sys2Proof.Machine
end

