-- ==== Sys2Proof/Laws/Operands.lean ====
section
/-!
SUPPORT. What the operand forms and the flag values are.
-/

namespace Sys2Proof.Machine

/-- The key latch a register names, or the raise when it names none. -/
theorem State.keyNamed_cases (s : State) (b : Byte) :
    (∃ h : b.toNat < 16, s.keyNamed b = .ok s.keys[b.toNat]) ∨
    (16 ≤ b.toNat ∧ s.keyNamed b = .error ⟨.keyIndexOutOfRange, b.toNat⟩) := by
  unfold State.keyNamed
  by_cases h : b.toNat < 16
  · exact .inl ⟨h, dif_pos h⟩
  · exact .inr ⟨by omega, dif_neg h⟩

/-- The set keys are exactly the latches that are true. -/
@[simp] theorem State.mem_pressedKeys (s : State) (k : Fin 16) :
    k ∈ s.pressedKeys ↔ s.keys[k] = true := by
  simp [State.pressedKeys]

/-- The draw picks one of the keys it is given. -/
theorem pickKey_mem (draw : Nat) (k : Fin 16) (ks : List (Fin 16)) :
    pickKey draw k ks ∈ k :: ks := by
  unfold pickKey
  cases ks with
  | nil => simp
  | cons k' ks' =>
    have h : draw % ((k' :: ks').length + 1) < (k :: k' :: ks').length :=
      Nat.mod_lt _ (by simp)
    simp only [List.getD, List.getElem?_eq_getElem h, Option.getD_some]
    exact List.getElem_mem h

/-- With one key set the draw picks it. -/
@[simp] theorem pickKey_single (draw : Nat) (k : Fin 16) : pickKey draw k [] = k := rfl

/-- The range check of a sprite: all its rows are in range, or the first that is not has the address
`max I 4096`. -/
theorem spriteRowOutOfRange_cases (i : Word) (n : Nat) :
    ((n = 0 ∨ i.toNat + n ≤ Config.memSize) ∧ spriteRowOutOfRange i n = none) ∨
    (0 < n ∧ Config.memSize < i.toNat + n ∧
      spriteRowOutOfRange i n = some (max i.toNat Config.memSize)) := by
  induction n with
  | zero => exact .inl ⟨.inl rfl, rfl⟩
  | succ n ih =>
    have step : spriteRowOutOfRange i (n + 1) =
        (spriteRowOutOfRange i n).or
          (if Config.memSize ≤ i.toNat + n then some (i.toNat + n) else none) := by
      simp only [spriteRowOutOfRange, List.range_succ, List.map_append, List.find?_append,
        List.map_cons, List.map_nil, List.find?_singleton, decide_eq_true_eq]
    rw [step]
    rcases ih with ⟨h, e⟩ | ⟨h0, h, e⟩
    · by_cases hc : Config.memSize ≤ i.toNat + n
      · refine .inr ⟨by omega, by omega, ?_⟩
        rw [e, if_pos hc, Option.none_or]
        congr 1
        omega
      · exact .inl ⟨by omega, by rw [e, if_neg hc]; rfl⟩
    · exact .inr ⟨by omega, by omega, by rw [e]; rfl⟩

@[simp] theorem flagByte_true : flagByte true = 1 := rfl
@[simp] theorem flagByte_false : flagByte false = 0 := rfl

theorem carryFlag_eq (a b : Byte) :
    carryFlag a b = if 256 ≤ a.toNat + b.toNat then 1 else 0 := by
  simp [carryFlag, flagByte]

theorem notBorrowFlag_eq (a b : Byte) :
    notBorrowFlag a b = if a.toNat < b.toNat then 0 else 1 := by
  by_cases h : a.toNat < b.toNat <;> simp [notBorrowFlag, flagByte, h]

theorem shiftedOutRight_eq (a : Byte) :
    shiftedOutRight a = if a.toNat % 2 = 1 then 1 else 0 := by
  simp [shiftedOutRight, flagByte, BitVec.getLsbD, Nat.testBit_zero]

theorem shiftedOutLeft_eq (a : Byte) :
    shiftedOutLeft a = if 128 ≤ a.toNat then 1 else 0 := by
  have h : a.getLsbD 7 = decide (128 ≤ a.toNat) := by
    have := a.isLt
    simp only [BitVec.getLsbD, Nat.testBit_eq_decide_div_mod_eq]
    congr 1
    simp only [eq_iff_iff]
    omega
  simp only [shiftedOutLeft, flagByte, h, decide_eq_true_eq]

/-- Zero extension keeps the value. -/
theorem zext16_toNat {w : Nat} (a : BitVec w) (h : w ≤ 16) : (zext16 a).toNat = a.toNat := by
  have : a.toNat < 2 ^ 16 := Nat.lt_of_lt_of_le a.isLt (Nat.pow_le_pow_right (by omega) h)
  simp only [zext16, BitVec.toNat_setWidth]
  exact Nat.mod_eq_of_lt this

end Sys2Proof.Machine
end

