-- ==== Sys2Proof/Laws/PerInstr.lean ====
section
/-!
SUPPORT. The family OwnRow: every instruction's word selects a row of the opcode map that builds the
instruction back, so no operand bit is lost in its own row. One lemma per constructor.
-/

namespace Sys2Proof.Laws.OwnRow

/-- The word of i selects a row of the map, and that row reads i from it (30_encoding.md R74). -/
def Statement (i : Instr) : Prop :=
  ∃ r ∈ opcodeTable, r.selects (encode i) = true ∧ r.build (encode i) = i

/-- The row at a place of the map, for an instruction whose word it selects. -/
theorem of_row {i : Instr} (k : Fin opcodeTable.length)
    (hs : encode i &&& opcodeTable[k].mask = opcodeTable[k].pattern)
    (hb : opcodeTable[k].build (encode i) = i) : Statement i :=
  ⟨opcodeTable[k], List.getElem_mem _, beq_iff_eq.mpr hs, hb⟩

theorem mask_nnn (c : Word) (nnn : Addr12) : (c ||| putNNN nnn) &&& 0xF000#16 = c &&& 0xF000#16 := by
  simp [or_and_mask, putNNN_mask]

theorem field_nnn {c : Word} (hc : c.extractLsb' 0 12 = 0) (nnn : Addr12) :
    fieldNNN (c ||| putNNN nnn) = nnn := by
  simp [fieldNNN, BitVec.extractLsb'_or, hc, putNNN_fields]

theorem mask_xnn (c : Word) (x : Reg) (nn : Byte) :
    (c ||| putX x ||| putNN nn) &&& 0xF000#16 = c &&& 0xF000#16 := by
  simp [or_and_mask, (putX_mask x).1, putNN_mask]

theorem fields_xnn {c : Word} (hx : c.extractLsb' 8 4 = 0) (hn : c.extractLsb' 0 8 = 0) (x : Reg)
    (nn : Byte) :
    fieldX (c ||| putX x ||| putNN nn) = x ∧ fieldNN (c ||| putX x ||| putNN nn) = nn := by
  simp [fieldX, fieldNN, BitVec.extractLsb'_or, hx, hn, putX_fields, putNN_fields]

theorem mask_xy (c : Word) (x y : Reg) :
    (c ||| putX x ||| putY y) &&& 0xF00F#16 = c &&& 0xF00F#16 := by
  simp [or_and_mask, putX_mask, putY_mask]

theorem fields_xy {c : Word} (hx : c.extractLsb' 8 4 = 0) (hy : c.extractLsb' 4 4 = 0) (x y : Reg) :
    fieldX (c ||| putX x ||| putY y) = x ∧ fieldY (c ||| putX x ||| putY y) = y := by
  simp [fieldX, fieldY, BitVec.extractLsb'_or, hx, hy, putX_fields, putY_fields]

theorem mask_x (c : Word) (x : Reg) : (c ||| putX x) &&& 0xF0FF#16 = c &&& 0xF0FF#16 := by
  simp [or_and_mask, putX_mask]

theorem field_x {c : Word} (hx : c.extractLsb' 8 4 = 0) (x : Reg) : fieldX (c ||| putX x) = x := by
  simp [fieldX, BitVec.extractLsb'_or, hx, putX_fields]

theorem nop : Statement .nop := of_row ⟨0, by decide⟩ (by decide) rfl

theorem cls : Statement .cls := of_row ⟨1, by decide⟩ (by decide) rfl

theorem ret : Statement .ret := of_row ⟨2, by decide⟩ (by decide) rfl

theorem jp (nnn : Addr12) : Statement (.jp nnn) :=
  of_row ⟨3, by decide⟩ (mask_nnn _ nnn) (congrArg Instr.jp (field_nnn (by decide) nnn))

theorem call (nnn : Addr12) : Statement (.call nnn) :=
  of_row ⟨4, by decide⟩ (mask_nnn _ nnn) (congrArg Instr.call (field_nnn (by decide) nnn))

theorem ldI (nnn : Addr12) : Statement (.ldI nnn) :=
  of_row ⟨5, by decide⟩ (mask_nnn _ nnn) (congrArg Instr.ldI (field_nnn (by decide) nnn))

theorem jpV0 (nnn : Addr12) : Statement (.jpV0 nnn) :=
  of_row ⟨6, by decide⟩ (mask_nnn _ nnn) (congrArg Instr.jpV0 (field_nnn (by decide) nnn))

theorem seImm (x : Reg) (nn : Byte) : Statement (.seImm x nn) :=
  of_row ⟨7, by decide⟩ (mask_xnn _ x nn)
    (congrArg₂ Instr.seImm (fields_xnn (by decide) (by decide) x nn).1
      (fields_xnn (by decide) (by decide) x nn).2)

theorem sneImm (x : Reg) (nn : Byte) : Statement (.sneImm x nn) :=
  of_row ⟨8, by decide⟩ (mask_xnn _ x nn)
    (congrArg₂ Instr.sneImm (fields_xnn (by decide) (by decide) x nn).1
      (fields_xnn (by decide) (by decide) x nn).2)

theorem ldImm (x : Reg) (nn : Byte) : Statement (.ldImm x nn) :=
  of_row ⟨9, by decide⟩ (mask_xnn _ x nn)
    (congrArg₂ Instr.ldImm (fields_xnn (by decide) (by decide) x nn).1
      (fields_xnn (by decide) (by decide) x nn).2)

theorem addImm (x : Reg) (nn : Byte) : Statement (.addImm x nn) :=
  of_row ⟨10, by decide⟩ (mask_xnn _ x nn)
    (congrArg₂ Instr.addImm (fields_xnn (by decide) (by decide) x nn).1
      (fields_xnn (by decide) (by decide) x nn).2)

theorem rnd (x : Reg) (nn : Byte) : Statement (.rnd x nn) :=
  of_row ⟨11, by decide⟩ (mask_xnn _ x nn)
    (congrArg₂ Instr.rnd (fields_xnn (by decide) (by decide) x nn).1
      (fields_xnn (by decide) (by decide) x nn).2)

theorem seReg (x y : Reg) : Statement (.seReg x y) :=
  of_row ⟨12, by decide⟩ (mask_xy _ x y)
    (congrArg₂ Instr.seReg (fields_xy (by decide) (by decide) x y).1
      (fields_xy (by decide) (by decide) x y).2)

theorem ldReg (x y : Reg) : Statement (.ldReg x y) :=
  of_row ⟨13, by decide⟩ (mask_xy _ x y)
    (congrArg₂ Instr.ldReg (fields_xy (by decide) (by decide) x y).1
      (fields_xy (by decide) (by decide) x y).2)

theorem orReg (x y : Reg) : Statement (.orReg x y) :=
  of_row ⟨14, by decide⟩ (mask_xy _ x y)
    (congrArg₂ Instr.orReg (fields_xy (by decide) (by decide) x y).1
      (fields_xy (by decide) (by decide) x y).2)

theorem andReg (x y : Reg) : Statement (.andReg x y) :=
  of_row ⟨15, by decide⟩ (mask_xy _ x y)
    (congrArg₂ Instr.andReg (fields_xy (by decide) (by decide) x y).1
      (fields_xy (by decide) (by decide) x y).2)

theorem xorReg (x y : Reg) : Statement (.xorReg x y) :=
  of_row ⟨16, by decide⟩ (mask_xy _ x y)
    (congrArg₂ Instr.xorReg (fields_xy (by decide) (by decide) x y).1
      (fields_xy (by decide) (by decide) x y).2)

theorem addReg (x y : Reg) : Statement (.addReg x y) :=
  of_row ⟨17, by decide⟩ (mask_xy _ x y)
    (congrArg₂ Instr.addReg (fields_xy (by decide) (by decide) x y).1
      (fields_xy (by decide) (by decide) x y).2)

theorem subReg (x y : Reg) : Statement (.subReg x y) :=
  of_row ⟨18, by decide⟩ (mask_xy _ x y)
    (congrArg₂ Instr.subReg (fields_xy (by decide) (by decide) x y).1
      (fields_xy (by decide) (by decide) x y).2)

theorem shr (x y : Reg) : Statement (.shr x y) :=
  of_row ⟨19, by decide⟩ (mask_xy _ x y)
    (congrArg₂ Instr.shr (fields_xy (by decide) (by decide) x y).1
      (fields_xy (by decide) (by decide) x y).2)

theorem subn (x y : Reg) : Statement (.subn x y) :=
  of_row ⟨20, by decide⟩ (mask_xy _ x y)
    (congrArg₂ Instr.subn (fields_xy (by decide) (by decide) x y).1
      (fields_xy (by decide) (by decide) x y).2)

theorem shl (x y : Reg) : Statement (.shl x y) :=
  of_row ⟨21, by decide⟩ (mask_xy _ x y)
    (congrArg₂ Instr.shl (fields_xy (by decide) (by decide) x y).1
      (fields_xy (by decide) (by decide) x y).2)

theorem sneReg (x y : Reg) : Statement (.sneReg x y) :=
  of_row ⟨22, by decide⟩ (mask_xy _ x y)
    (congrArg₂ Instr.sneReg (fields_xy (by decide) (by decide) x y).1
      (fields_xy (by decide) (by decide) x y).2)

theorem drw (x y : Reg) (n : Fin 16) : Statement (.drw x y n) :=
  of_row ⟨23, by decide⟩
    (by
      change (0xD000#16 ||| putX x ||| putY y ||| putN n) &&& 0xF000#16 = 0xD000#16
      simp [or_and_mask, putX_mask, putY_mask, putN_mask])
    (by
      change Instr.drw (fieldX (0xD000#16 ||| putX x ||| putY y ||| putN n))
        (fieldY (0xD000#16 ||| putX x ||| putY y ||| putN n))
        (fieldN (0xD000#16 ||| putX x ||| putY y ||| putN n)) = .drw x y n
      simp [fieldX, fieldY, fieldN, BitVec.extractLsb'_or, putX_fields, putY_fields, putN_fields])

theorem skp (x : Reg) : Statement (.skp x) :=
  of_row ⟨24, by decide⟩ (mask_x _ x) (congrArg Instr.skp (field_x (by decide) x))

theorem sknp (x : Reg) : Statement (.sknp x) :=
  of_row ⟨25, by decide⟩ (mask_x _ x) (congrArg Instr.sknp (field_x (by decide) x))

theorem ldFromDt (x : Reg) : Statement (.ldFromDt x) :=
  of_row ⟨26, by decide⟩ (mask_x _ x) (congrArg Instr.ldFromDt (field_x (by decide) x))

theorem ldKey (x : Reg) : Statement (.ldKey x) :=
  of_row ⟨27, by decide⟩ (mask_x _ x) (congrArg Instr.ldKey (field_x (by decide) x))

theorem ldToDt (x : Reg) : Statement (.ldToDt x) :=
  of_row ⟨28, by decide⟩ (mask_x _ x) (congrArg Instr.ldToDt (field_x (by decide) x))

theorem ldToSt (x : Reg) : Statement (.ldToSt x) :=
  of_row ⟨29, by decide⟩ (mask_x _ x) (congrArg Instr.ldToSt (field_x (by decide) x))

theorem addI (x : Reg) : Statement (.addI x) :=
  of_row ⟨30, by decide⟩ (mask_x _ x) (congrArg Instr.addI (field_x (by decide) x))

end Sys2Proof.Laws.OwnRow
end

