-- ==== Sys2Proof/Laws/Step.lean ====
section
/-!
SUPPORT. What a STEP and each command can do, said once.
-/

namespace Sys2Proof.Machine

/-- The four ways a STEP goes (30_encoding.md R80). -/
theorem step_cases (s : State) :
    (∃ f, s.fault = some f ∧ step s = .next s) ∨
    (s.fault = none ∧ ∃ f, fetchWord s.mem s.pc = .error f ∧
      step s = .next (s.takeFault none f)) ∨
    (s.fault = none ∧ ∃ w, fetchWord s.mem s.pc = .ok w ∧ decodeWord w = none ∧
      step s = .next (s.takeFault (some w) ⟨.decodeFailure, w.toNat⟩)) ∨
    (s.fault = none ∧ ∃ w i, fetchWord s.mem s.pc = .ok w ∧ decodeWord w = some i ∧
      step s = exec i s) := by
  unfold step fetchDecode
  cases hf : s.fault with
  | some f => exact .inl ⟨f, rfl, rfl⟩
  | none =>
    cases hw : fetchWord s.mem s.pc with
    | error f => exact .inr (.inl ⟨rfl, f, rfl, rfl⟩)
    | ok w =>
      cases hd : decodeWord w with
      | none => exact .inr (.inr (.inl ⟨rfl, w, rfl, hd, by simp [hd]⟩))
      | some i => exact .inr (.inr (.inr ⟨rfl, w, i, rfl, hd, by simp [hd]⟩))

@[simp] theorem step_of_faulted {s : State} {f : FaultRecord} (h : s.fault = some f) :
    step s = .next s := by simp [step, h]

/-- A state that a STEP leaves unchanged stays after any number of STEPs. -/
theorem run_of_step_self {s : State} (h : step s = .next s) (k : Nat) :
    core.run k s = .next s := by
  induction k with
  | zero => rfl
  | succ k ih =>
    have e : core.step s = .next s := h
    simp only [Host.Core.run, e]
    exact ih

/-- LOAD either copies the bytes or refuses. -/
theorem loadCommand_cases (bytes : List Byte) (s : State) :
    (bytes.length ≤ Config.programCapacity ∧
      loadCommand bytes s =
        ({ s with mem := s.mem.writeBytes Config.programBase bytes }, .loaded)) ∨
    (Config.programCapacity < bytes.length ∧ loadCommand bytes s = (s, .capacityError)) := by
  unfold loadCommand imageWellFormed
  by_cases h : bytes.length ≤ Config.programCapacity
  · exact .inl ⟨h, by simp [h]⟩
  · exact .inr ⟨by omega, by simp [h]⟩

/-- LOAD keeps the canonical form of memory. -/
theorem loadCommand_wf {bytes : List Byte} {s : State} (h : s.mem.wf = true) :
    (loadCommand bytes s).1.mem.wf = true := by
  rcases loadCommand_cases bytes s with ⟨hl, e⟩ | ⟨-, e⟩ <;> rw [e]
  · refine Memory.wf_writeBytes h _ bytes ?_
    simp only [Config.programBase, Config.programCapacity, Config.memSize] at hl ⊢
    omega
  · exact h

/-- The reset memory of every GLYPH is in canonical form. -/
theorem resetWith_wf (g : GlyphTable) : (State.resetWith g).mem.wf = true := by
  refine Memory.wf_writeBytes Memory.wf_nil 0 g.toList ?_
  simp [Config.glyphSize, Config.memSize]

theorem countDown_toNat (t : Byte) : (countDown t).toNat = t.toNat - 1 := by
  unfold countDown
  by_cases h : t = 0
  · subst h
    rfl
  · rw [if_neg h]
    have : t.toNat ≠ 0 := fun e => h (BitVec.eq_of_toNat_eq (by simpa using e))
    have := t.isLt
    bv_omega

end Sys2Proof.Machine
end

