-- ==== Sys2Proof/Tests/Slice0.lean ====
section
/-!
SUPPORT. The model's own tests. Words are written out from the encodings of 30_encoding.md; expected
results are the vectors of 95_test_vectors.md (named in each comment); the witnesses at the end meet
the hypotheses of the statements.
-/

namespace Sys2Proof.Tests

open Sys2Proof Sys2Proof.Machine Sys2Proof.Claims

set_option maxRecDepth 4000

/-! ## Helpers -/

/-- The reset state with some registers set. -/
def regs (l : List (Reg × Byte)) : State := l.foldl (fun s p => s.setReg p.1 p.2) State.reset

/-- The state after one STEP of a word placed at pc. -/
def ran (w : Nat) (s : State) : Option State :=
  match step (s.withFetchWord 16 w) with
  | .next t => some t
  | _ => none

/-- The state an answer gives. -/
def next? (a : Answer) : Option State :=
  match a with
  | .next t => some t
  | _ => none

/-- The registers of a state, as a list. -/
def vs (s : State) (l : List Reg) : List Byte := l.map (s.v[·])

/-- The linear indices of the lit cells among the first k (10_state.md R30). -/
def litBelow (fb : Framebuffer) (k : Nat) : List Nat :=
  (List.range k).filter fun j => Framebuffer.litAt fb (Fin.ofNat 2048 j)

/-- The rows of a framebuffer that are not blank, with their bits (bit col is cell (col, row)). -/
def litRows (fb : Framebuffer) : List (Nat × Nat) :=
  ((List.finRange 32).map fun r => (r.val, fb[r].toNat)).filter fun p => p.2 != 0

/-- A fault record. -/
def record (k : FaultKind) (addr : Word) (word : Option Word) (info : Nat) : Option FaultRecord :=
  some ⟨k, addr, word, info⟩

/-- The reset state with key latches set. -/
def pressing (ks : List (Fin 16)) (s : State) : State :=
  { s with keys := ks.foldl (fun (v : Vector Bool 16) (k : Fin 16) => v.set k true) s.keys }

/-- A state with a sprite stored at I. -/
def withSprite (a : Word) (bytes : List Byte) (s : State) : State :=
  { s with i := a, mem := s.mem.writeBytes a.toNat bytes }

/-! ## WellFormed refuses an ill-formed term of each kind -/

theorem test_wellFormed_zero_nibble : wordWellFormed 0x0123 = false := by decide
theorem test_wellFormed_five_nibble : wordWellFormed 0x5121 = false := by decide
theorem test_wellFormed_eight_nibble : wordWellFormed 0x8008 = false := by decide
theorem test_wellFormed_nine_nibble : wordWellFormed 0x9121 = false := by decide
theorem test_wellFormed_e_nibble : wordWellFormed 0xE000 = false := by decide
theorem test_wellFormed_f_nibble : wordWellFormed 0xF029 = false := by decide
theorem test_wellFormed_image (b : Byte) : imageWellFormed (List.replicate 3585 b) = false :=
  decide_eq_false (by rw [List.length_replicate]; decide)
theorem test_wellFormed_key : keyIndexWellFormed 16 = false := by decide

/-! ## Decoding, word by word (30_encoding.md R73, R74) -/

theorem test_decode_Z :
    decodeWord 0b0000000000000000 = some .nop ∧
    decodeWord 0b0000000011100000 = some .cls ∧
    decodeWord 0b0000000011101110 = some .ret := by decide

theorem test_decode_NNN :
    decodeWord 0b0001101010111100 = some (.jp 0xABC) ∧
    decodeWord 0b0010001000010000 = some (.call 0x210) ∧
    decodeWord 0b1010111111111111 = some (.ldI 0xFFF) ∧
    decodeWord 0b1011001000000110 = some (.jpV0 0x206) := by decide

theorem test_decode_XNN :
    decodeWord 0b0011001100000110 = some (.seImm 3 0x06) ∧
    decodeWord 0b0100000000000001 = some (.sneImm 0 0x01) ∧
    decodeWord 0b0110101000101011 = some (.ldImm 0xA 0x2B) ∧
    decodeWord 0b0111111100000001 = some (.addImm 0xF 0x01) ∧
    decodeWord 0b1100001100001111 = some (.rnd 3 0x0F) := by decide

theorem test_decode_XYF_low :
    decodeWord 0b0101000100100000 = some (.seReg 1 2) ∧
    decodeWord 0b1000000100100000 = some (.ldReg 1 2) ∧
    decodeWord 0b1000000100100001 = some (.orReg 1 2) ∧
    decodeWord 0b1000000100100010 = some (.andReg 1 2) ∧
    decodeWord 0b1000000100100011 = some (.xorReg 1 2) ∧
    decodeWord 0b1000000100100100 = some (.addReg 1 2) := by decide

theorem test_decode_XYF_high :
    decodeWord 0b1000000100100101 = some (.subReg 1 2) ∧
    decodeWord 0b1000111100000110 = some (.shr 0xF 0) ∧
    decodeWord 0b1000000100100111 = some (.subn 1 2) ∧
    decodeWord 0b1000001000001110 = some (.shl 2 0) ∧
    decodeWord 0b1001000100100000 = some (.sneReg 1 2) ∧
    decodeWord 0b1101000100101111 = some (.drw 1 2 15) := by decide

theorem test_decode_XF :
    decodeWord 0b1110010110011110 = some (.skp 5) ∧
    decodeWord 0b1110010110100001 = some (.sknp 5) ∧
    decodeWord 0b1111001000000111 = some (.ldFromDt 2) ∧
    decodeWord 0b1111001100001010 = some (.ldKey 3) ∧
    decodeWord 0b1111000100010101 = some (.ldToDt 1) ∧
    decodeWord 0b1111000100011000 = some (.ldToSt 1) ∧
    decodeWord 0b1111000100011110 = some (.addI 1) := by decide

theorem test_decode_bytes_high_byte_first :
    decodeBytes [0x81, 0x25, 0x00] = .ok (.subReg 1 2, [0x00]) := rfl

theorem test_decode_bytes_too_short : decodeBytes [0x12] = .error .tooShort := rfl

theorem test_decode_table_word : decodeTableWord 16 0xD12F = some (.drw 1 2 15) := by decide

theorem test_decode_table_word_illegal : decodeTableWord 16 0xF133 = none := by decide

/-! ## Fetch, decode and fault vectors -/

/-- E1 -/
theorem test_step_decode_failure :
    ran 0x5121 State.reset = some { State.reset.withFetchWord 16 0x5121 with
      fault := record .decodeFailure 0x200 (some 0x5121) 0x5121 } := by decide

/-- E5 -/
theorem test_step_misaligned :
    next? (step { State.reset with pc := 0x201 }) = some { State.reset with
      pc := 0x201, fault := record .misalignedFetch 0x201 none 0x201 } := by decide

/-- E6 -/
theorem test_step_out_of_range :
    next? (step { State.reset with pc := 0x1000 }) = some { State.reset with
      pc := 0x1000, fault := record .memOutOfRange 0x1000 none 0x1000 } := by decide

/-- E7 -/
theorem test_step_last_word :
    next? (step { State.reset with pc := 0xFFE }) = some { State.reset with pc := 0x1000 } := by
  decide

/-- The word is stored high byte first at pc (20_memory.md R57). -/
theorem test_withFetchWord_bytes :
    (State.reset.withFetchWord 16 0x6A2B).mem = [(0x200, 0x6A), (0x201, 0x2B)] := by decide

/-! ## Control flow vectors -/

/-- E8 -/
theorem test_nop : (ran 0x0000 State.reset) = some { State.reset with pc := 0x202 } := by decide

/-- C1 -/
theorem test_ret_underflow :
    (ran 0x00EE State.reset).map (fun t => (t.pc, t.fault)) =
      some (0x200, record .stackUnderflow 0x200 (some 0x00EE) 0) := by decide

/-- C2 -/
theorem test_ret :
    (ran 0x00EE { State.reset with sp := 1, stack := State.reset.stack.set 0 0x0206 }).map
      (fun t => (t.pc, t.sp, t.stack[0])) = some (0x206, 0, 0x0206) := by decide

/-- C3 -/
theorem test_jp : (ran 0x1ABC State.reset).map (·.pc) = some 0xABC := by decide

/-- C7 -/
theorem test_call :
    (ran 0x2210 { State.reset with pc := 0x204 }).map (fun t => (t.pc, t.sp, t.stack[0])) =
      some (0x210, 1, 0x0206) := by decide

/-- C6 -/
theorem test_call_overflow :
    (ran 0x2300 { State.reset with sp := 16 }).map (fun t => (t.pc, t.sp, t.fault)) =
      some (0x200, 16, record .stackOverflow 0x200 (some 0x2300) 16) := by decide

/-- C8 -/
theorem test_seImm_skips :
    (ran 0x3306 { regs [(3, 0x06)] with pc := 0x208 }).map (·.pc) = some 0x20C := by decide

/-- C9 -/
theorem test_seImm_does_not_skip :
    (ran 0x3306 { regs [(3, 0x05)] with pc := 0x208 }).map (·.pc) = some 0x20A := by decide

/-- C10 -/
theorem test_sneImm_skips : (ran 0x4001 State.reset).map (·.pc) = some 0x204 := by decide

/-- C11 -/
theorem test_sneImm_does_not_skip : (ran 0x4001 (regs [(0, 1)])).map (·.pc) = some 0x202 := by decide

/-- C12 -/
theorem test_seReg_skips :
    (ran 0x5120 (regs [(1, 0x10), (2, 0x10)])).map (·.pc) = some 0x204 := by decide

theorem test_seReg_does_not_skip :
    (ran 0x5120 (regs [(1, 0x10), (2, 0x11)])).map (·.pc) = some 0x202 := by decide

/-- C14 and C15 -/
theorem test_sneReg_by_parameter :
    (next? (sneRegWith .table 1 2 (regs [(1, 0x10), (2, 0x20)]))).map (·.pc) = some 0x204 ∧
    (next? (sneRegWith .reference 1 2 (regs [(1, 0x10), (2, 0x20)]))).map (·.pc) = some 0x202 := by
  decide

/-- C16 -/
theorem test_sneReg_equal :
    (next? (sneRegWith .table 1 2 (regs [(1, 0x10), (2, 0x10)]))).map (·.pc) = some 0x202 ∧
    (next? (sneRegWith .reference 1 2 (regs [(1, 0x10), (2, 0x10)]))).map (·.pc) = some 0x202 := by
  decide

/-- C17 -/
theorem test_jpV0 : (ran 0xB206 (regs [(0, 0x04)])).map (·.pc) = some 0x20A := by decide

/-- C18 -/
theorem test_jpV0_not_masked : (ran 0xBFFF (regs [(0, 0xFF)])).map (·.pc) = some 0x10FE := by decide

/-! ## Register and ALU vectors -/

/-- A1 -/
theorem test_ldImm : (ran 0x6A2B State.reset).map (vs · [0xA]) = some [0x2B] := by decide

/-- S3a -/
theorem test_addImm_wraps :
    (ran 0x7102 (regs [(1, 0xFF)])).map (vs · [1, 0xF]) = some [0x01, 0x00] := by decide

/-- A2 -/
theorem test_addImm_to_vf :
    (ran 0x7F01 (regs [(0xF, 0xFF)])).map (vs · [0xF]) = some [0x00] := by decide

/-- A3 -/
theorem test_ldReg : (ran 0x8120 (regs [(2, 0x7E)])).map (vs · [1, 2]) = some [0x7E, 0x7E] := by decide

/-- A4 -/
theorem test_orReg :
    (ran 0x8011 (regs [(0, 0xF0), (1, 0x0F), (0xF, 0x55)])).map (vs · [0, 0xF]) =
      some [0xFF, 0x55] := by decide

/-- A5 -/
theorem test_andReg :
    (ran 0x8012 (regs [(0, 0xF0), (1, 0x3C)])).map (vs · [0]) = some [0x30] := by decide

/-- A6 -/
theorem test_xorReg :
    (ran 0x8013 (regs [(0, 0xF0), (1, 0x3C)])).map (vs · [0]) = some [0xCC] := by decide

/-- A7 -/
theorem test_xorReg_same : (ran 0x8003 (regs [(0, 0x5A)])).map (vs · [0]) = some [0x00] := by decide

/-- S4a -/
theorem test_addReg_carry :
    (ran 0x8014 (regs [(0, 0xFF), (1, 0x01)])).map (vs · [0, 0xF]) = some [0x00, 0x01] := by decide

/-- A10 -/
theorem test_addReg_to_vf :
    (ran 0x8F14 (regs [(0xF, 0xFF), (1, 0x01)])).map (vs · [0xF]) = some [0x01] := by decide

/-- S5a -/
theorem test_subReg_borrow :
    (ran 0x8015 (regs [(0, 0x10), (1, 0x20)])).map (vs · [0, 0xF]) = some [0xF0, 0x00] := by decide

/-- A12 -/
theorem test_subReg_equal :
    (ran 0x8015 (regs [(0, 0x33), (1, 0x33)])).map (vs · [0, 0xF]) = some [0x00, 0x01] := by decide

/-- A26 -/
theorem test_shr_ignores_y :
    (ran 0x8016 (regs [(0, 0x05), (1, 0x99)])).map (vs · [0, 1, 0xF]) =
      some [0x02, 0x99, 0x01] := by decide

/-- A19 -/
theorem test_shr_of_vf : (ran 0x8F06 (regs [(0xF, 0xC1)])).map (vs · [0xF]) = some [0x01] := by decide

/-- A20 -/
theorem test_subn :
    (ran 0x8017 (regs [(0, 0x10), (1, 0x20)])).map (vs · [0, 0xF]) = some [0x10, 0x01] := by decide

/-- A21 -/
theorem test_subn_borrow :
    (ran 0x8017 (regs [(0, 0x20), (1, 0x10)])).map (vs · [0, 0xF]) = some [0xF0, 0x00] := by decide

/-- A22 -/
theorem test_shl : (ran 0x820E (regs [(2, 0x81)])).map (vs · [2, 0xF]) = some [0x02, 0x01] := by decide

/-- A25 -/
theorem test_shl_of_vf : (ran 0x8FFE (regs [(0xF, 0x40)])).map (vs · [0xF]) = some [0x00] := by decide

/-- A27 -/
theorem test_rnd_masks :
    (next? (rndWith (fun _ => 0xA7) 3 0x0F State.reset)).map (fun t => (t.v[3], t.rndDraws)) =
      some (0x07, 1) := by decide

/-- A28 -/
theorem test_rnd_zero_mask :
    (next? (rndWith (fun _ => 0xA7) 3 0x00 State.reset)).map (vs · [3]) = some [0x00] := by decide

/-! ## Index register vectors -/

/-- X1 -/
theorem test_ldI : (ran 0xA20E State.reset).map (·.i) = some 0x020E := by decide

/-- X2 -/
theorem test_addI : (ran 0xF11E { regs [(1, 0x05)] with i := 0x0FFF }).map (·.i) = some 0x1004 := by
  decide

/-- X3 -/
theorem test_addI_wraps :
    (ran 0xF11E { regs [(1, 0x01), (0xF, 0x09)] with i := 0xFFFF }).map
      (fun t => (t.i, t.v[0xF])) = some (0x0000, 0x09) := by decide

/-! ## Display vectors -/

/-- D1 -/
theorem test_cls :
    (ran 0x00E0 { State.reset with fb := State.reset.fb.set 31 0x8001 }).map (litRows ·.fb) =
      some [] := by decide

/-- D7 -/
theorem test_drw_wraps_both_axes :
    (ran 0xD012 (withSprite 0x20E [0x81, 0xC3] (regs [(0, 0x3E), (1, 0x1F)]))).map
      (fun t => (litRows t.fb, t.v[0xF])) =
      some ([(0, 2 ^ 62 + 2 ^ 63 + 2 ^ 4 + 2 ^ 5), (31, 2 ^ 62 + 2 ^ 5)], 0x00) := by decide

/-- S6b, from the framebuffer S6a gives -/
theorem test_drw_collision :
    (ran 0xD011 (withSprite 0x300 [0xFF] { regs [(0, 0x3C)] with
        fb := State.reset.fb.set 0 (BitVec.ofNat 64 (15 * 2 ^ 60 + 15)) })).map
      (fun t => (litRows t.fb, t.v[0xF])) = some ([], 0x01) := by decide

/-- D4 -/
theorem test_drw_out_of_range :
    (ran 0xD012 { State.reset with i := 0x0FFF }).map (fun t => (t.pc, litRows t.fb, t.fault)) =
      some (0x200, [], record .memOutOfRange 0x200 (some 0xD012) 0x1000) := by decide

/-- The linear indices of (62,0), (63,0) and (0,1) (10_state.md R30). -/
theorem test_litAt :
    litBelow ((State.reset.fb.set 0 (BitVec.ofNat 64 (2 ^ 62 + 2 ^ 63))).set 1 1) 70 =
      [62, 63, 64] := by decide

/-! ## Key and timer vectors -/

/-- K1 -/
theorem test_skp_pressed :
    (ran 0xE59E { pressing [7] (regs [(5, 0x07)]) with pc := 0x202 }).map (·.pc) = some 0x206 := by
  decide

/-- K4 -/
theorem test_skp_out_of_range :
    (ran 0xE09E (regs [(0, 0x10)])).map (fun t => (t.pc, t.fault)) =
      some (0x200, record .keyIndexOutOfRange 0x200 (some 0xE09E) 16) := by decide

/-- K3 -/
theorem test_sknp_not_pressed :
    (ran 0xE5A1 { regs [(5, 0x07)] with pc := 0x202 }).map (·.pc) = some 0x206 := by decide

theorem test_sknp_pressed :
    (ran 0xE5A1 (pressing [7] (regs [(5, 0x07)]))).map (·.pc) = some 0x202 := by decide

/-- K5 and K6: of the set keys 3 and 9, either. -/
theorem test_ldKey_picks :
    (next? (ldKeyWith (fun _ => 1) 0 (pressing [3, 9] State.reset))).map
      (fun t => (t.v[0], t.keys[3], t.keys[9])) = some (0x09, true, true) ∧
    (next? (ldKeyWith (fun _ => 0) 0 (pressing [3, 9] State.reset))).map (vs · [0]) = some [0x03] := by
  decide

/-- S8a -/
theorem test_ldKey_replays :
    ran 0xF30A State.reset = some (State.reset.withFetchWord 16 0xF30A) := by decide

/-- K7 -/
theorem test_ldFromDt :
    (ran 0xF207 { State.reset with dt := 0x03 }).map (vs · [2]) = some [0x03] := by decide

/-- K8 -/
theorem test_ldToDt :
    (ran 0xF115 (regs [(1, 0x05)])).map (fun t => (t.dt, t.st)) = some (0x05, 0x00) := by decide

/-- K9 -/
theorem test_ldToSt :
    (ran 0xF118 (regs [(1, 0x05)])).map (fun t => (t.dt, t.st)) = some (0x00, 0x05) := by decide

/-! ## Command vectors -/

/-- T2 -/
theorem test_tick_event :
    tickCommand { State.reset with st := 0x01 } = (State.reset, .tickStatus true none) := by decide

/-- T1 -/
theorem test_tick_counts_down :
    tickCommand { State.reset with dt := 0x01, st := 0x02 } =
      ({ State.reset with st := 0x01 }, .tickStatus false none) := by decide

/-- A faulted state with DT = 5. -/
def faulted : State :=
  { State.reset with dt := 5, fault := record .decodeFailure 0x200 (some 0xF029) 0xF029 }

/-- E9 -/
theorem test_tick_faulted :
    tickCommand faulted = (faulted, .tickStatus false faulted.fault) := by decide

/-- E9 -/
theorem test_step_faulted : next? (step faulted) = some faulted := by decide

/-- E13 -/
theorem test_load :
    loadCommand [0x60, 0x01] { State.reset with
        mem := Memory.writeBytes [] 0x200 [0x11, 0x11, 0x22, 0x22] } =
      ({ State.reset with mem := [(0x200, 0x60), (0x201, 0x01), (0x202, 0x22), (0x203, 0x22)] },
        .loaded) := by decide

/-- E11 -/
theorem test_load_too_long :
    loadCommand (List.replicate 3585 0x12) State.reset = (State.reset, .capacityError) := by
  rw [loadCommand, test_wellFormed_image]; rfl

/-- H1 -/
theorem test_setKey :
    setKeyCommand 4 true State.reset = .next (pressing [4] State.reset, .done) := rfl

/-- Loading the reset content lists nothing: memory stays canonical. -/
theorem test_canonical_memory :
    Memory.writeBytes (Memory.writeBytes [] 0 [0xF0, 0x91]) 1 [0x90] = [] := by decide

/-! ## Witnesses: the hypotheses of the statements are met -/

theorem witness_EncodeOfDecodeIsTheWord : decodeWord 0xD12F = some (.drw 1 2 15) := by decide

theorem witness_ExactlyUnmatchedWordsAreIllegal :
    (0xF029#16 &&& 0xF000#16 = 0xF000#16 ∧ 0xF029#16 &&& 0x00FF#16 = 0x0029#16) ∧
    (0xF033#16 &&& 0xF000#16 = 0xF000#16 ∧ 0xF033#16 &&& 0x00FF#16 = 0x0033#16) ∧
    (0xF155#16 &&& 0xF000#16 = 0xF000#16 ∧ 0xF155#16 &&& 0x00FF#16 = 0x0055#16) ∧
    (0xFF65#16 &&& 0xF000#16 = 0xF000#16 ∧ 0xFF65#16 &&& 0x00FF#16 = 0x0065#16) := by decide

theorem witness_NoWordSelectsTwoRows :
    (opcodeTable[1]'(by decide)).selects 0x00E0 = true ∧
    (opcodeTable[30]'(by decide)).selects 0xFF1E = true := by decide

theorem witness_FetchReadsBigEndianOrRaises :
    ((0x0FFF#16).toNat % 2 = 1) ∧
    ((0x1000#16).toNat % 2 = 0 ∧ 4096 ≤ (0x1000#16).toNat + 1) ∧
    ((0x0FFE#16).toNat % 2 = 0 ∧ (0x0FFE#16).toNat + 1 < 4096) := by decide

/-- The last word of memory, holding a jump. -/
def atTheLastWord : State := { State.reset with pc := 0xFFE }.withFetchWord 16 0x1ABC

theorem witness_StepRunsTheDecodedInstruction :
    atTheLastWord.fault = none ∧ atTheLastWord.pc.toNat % 2 = 0 ∧ atTheLastWord.pc.toNat < 4096 ∧
    decodeBytes [atTheLastWord.mem.read atTheLastWord.pc.toNat,
      atTheLastWord.mem.read (atTheLastWord.pc.toNat + 1)] = .ok (.jp 0xABC, []) :=
  ⟨rfl, rfl, by decide, rfl⟩

theorem witness_StepFaultPriority_misaligned :
    { State.reset with pc := 0xFFFF }.fault = none ∧ (0xFFFF#16).toNat % 2 = 1 := by decide

theorem witness_StepFaultPriority_range :
    { State.reset with pc := 0x1000 }.fault = none ∧ (0x1000#16).toNat % 2 = 0 ∧
      4096 ≤ (0x1000#16).toNat := by decide

theorem witness_StepFaultPriority_decode :
    (State.reset.withFetchWord 16 0xF029).fault = none ∧
    fetchWord (State.reset.withFetchWord 16 0xF029).mem 0x200 = .ok 0xF029 ∧
    decodeWord 0xF029 = none := ⟨rfl, rfl, by decide⟩

theorem witness_StepFaultPriority_execute :
    atTheLastWord.fault = none ∧ fetchWord atTheLastWord.mem atTheLastWord.pc = .ok 0x1ABC ∧
    decodeWord 0x1ABC = some (.jp 0xABC) := ⟨rfl, rfl, by decide⟩

theorem witness_PlacedWordIsFetchedNext : State.reset.mem.wf = true := by decide

/-- A STEP from an unfaulted state latches a record of each kind in turn. -/
theorem witness_LatchedRecordsAreTheListedKinds_fetch :
    (next? (step { State.reset with pc := 0x201 })).map (·.fault) =
      some (record .misalignedFetch 0x201 none 0x201) ∧
    (next? (step { State.reset with pc := 0x1000 })).map (·.fault) =
      some (record .memOutOfRange 0x1000 none 0x1000) ∧
    (ran 0xF029 State.reset).map (·.fault) =
      some (record .decodeFailure 0x200 (some 0xF029) 0xF029) := by decide

theorem witness_LatchedRecordsAreTheListedKinds_execute :
    (ran 0xD001 { State.reset with i := 0x1000 }).map (·.fault) =
      some (record .memOutOfRange 0x200 (some 0xD001) 0x1000) ∧
    (ran 0x2FFF { State.reset with sp := 16 }).map (·.fault) =
      some (record .stackOverflow 0x200 (some 0x2FFF) 16) ∧
    (ran 0x00EE State.reset).map (·.fault) =
      some (record .stackUnderflow 0x200 (some 0x00EE) 0) ∧
    (ran 0xEFA1 (regs [(0xF, 0xFF)])).map (·.fault) =
      some (record .keyIndexOutOfRange 0x200 (some 0xEFA1) 255) := by decide

/-- The state a RET of the empty stack leaves: the latch has changed. -/
theorem witness_FaultsArePreciseAndSticky_raised :
    (ran 0x00EE State.reset).map (·.fault) ≠ some State.reset.fault := by decide

theorem witness_FaultsArePreciseAndSticky_load :
    faulted.fault.isSome = true ∧
    commandWith defaultGlyph (.load [0x12, 0x00]) { faulted with fault := none } =
      .next ({ faulted with fault := none, mem := [(0x200, 0x12)] }, .loaded) := ⟨rfl, rfl⟩

theorem witness_FaultsArePreciseAndSticky_setKey :
    commandWith defaultGlyph (.setKey 15 true) faulted = .next (pressing [15] faulted, .done) := rfl

/-- The reset state meets the invariant. -/
theorem reset_inv : State.reset.Invariant where
  pcBound := by decide
  returnAddresses := fun _ h => absurd h (Nat.not_lt_zero _)
  memWf := by decide
  faultAddr := fun _ h => by cases h

/-- An invariant state with a full stack, from which a STEP runs (StepKeepsTheInvariant). -/
theorem witness_StepKeepsTheInvariant :
    State.Invariant { State.reset with sp := 16, stack := Vector.replicate 16 0x1000 } ∧
    ∃ t, step { State.reset with sp := 16, stack := Vector.replicate 16 0x1000 } = .next t := by
  refine ⟨⟨by decide, ?_, by decide, fun _ h => by cases h⟩, _, rfl⟩
  intro j _
  revert j
  decide

theorem witness_EveryScheduleKeepsTheInvariant :
    ∃ s outs, runCommands defaultGlyph [.load [0x12, 0x00], .step, .tick, .setKey 15 true, .readFb,
      .reset] (State.resetWith defaultGlyph) = .next (s, outs) := ⟨_, _, rfl⟩

theorem witness_MemoryIsWrittenOnlyByResetAndLoad_low :
    State.reset.mem.wf = true ∧
    (∃ t out, commandWith defaultGlyph (.load [0x12]) State.reset = .next (t, out)) ∧
    Command.load [0x12] ≠ .reset ∧ 0x1FF < 0x200 := ⟨by decide, ⟨_, _, rfl⟩, by decide, by decide⟩

theorem witness_MemoryIsWrittenOnlyByResetAndLoad_step :
    State.reset.mem.wf = true ∧
    (∃ t out, commandWith defaultGlyph .step State.reset = .next (t, out)) ∧
    Command.step ≠ .reset ∧ ∀ bytes, Command.step ≠ .load bytes :=
  ⟨by decide, ⟨_, _, rfl⟩, by decide, fun _ => Command.noConfusion⟩

theorem witness_KeysAreWrittenOnlyBySetKey :
    (∃ t out, commandWith defaultGlyph .tick State.reset = .next (t, out)) ∧
    Command.tick ≠ .reset ∧ ∀ k p, Command.tick ≠ .setKey k p :=
  ⟨⟨_, _, rfl⟩, by decide, fun _ _ => Command.noConfusion⟩

/-- Two memories built in different orders. -/
theorem witness_EqualReadsAreEqualMemories :
    Memory.wf (Memory.write (Memory.write [] 0xFFF 1) 0 2) = true ∧
    Memory.wf (Memory.write (Memory.write [] 0 2) 0xFFF 1) = true ∧
    ∀ a, Memory.read (Memory.write (Memory.write [] 0xFFF 1) 0 2) a =
      Memory.read (Memory.write (Memory.write [] 0 2) 0xFFF 1) a :=
  ⟨by decide, by decide, fun _ => rfl⟩

theorem witness_OtherGeneralRegistersKeepTheirValues :
    (∃ t, exec (.addReg 0 1) State.reset = .next t) ∧ (14 : Reg) ∉ regsWritten (.addReg 0 1) :=
  ⟨⟨_, rfl⟩, by decide⟩

theorem witness_FlagRegisterIsWrittenLast_flag :
    aluFlag (regs [(0xF, 0xFF), (1, 0x01)]) (.addReg 0xF 1) = some 1 ∧
    aluFlag (regs [(0xF, 0x40)]) (.shl 0xF 0xF) = some 0 := by decide

theorem witness_FlagRegisterIsWrittenLast_frame :
    writesFlag (.addImm 0xE 1) = false ∧ destination (.addImm 0xE 1) ≠ some VF ∧
    ∃ t, exec (.addImm 0xE 1) State.reset = .next t := ⟨by decide, by decide, _, rfl⟩

/-- NOP is none of the instructions each clause leaves out, and it completes. -/
theorem witness_OtherStateKeepsItsValue :
    (∃ t, exec .nop State.reset = .next t) ∧ (∀ nnn, Instr.nop ≠ .call nnn) ∧ Instr.nop ≠ .ret ∧
    (∀ nnn, Instr.nop ≠ .ldI nnn) ∧ (∀ x, Instr.nop ≠ .addI x) ∧ (∀ x, Instr.nop ≠ .ldToDt x) ∧
    (∀ x, Instr.nop ≠ .ldToSt x) ∧ Instr.nop ≠ .cls ∧ (∀ x y n, Instr.nop ≠ .drw x y n) ∧
    (∀ x, Instr.nop ≠ .skp x) ∧ (∀ x, Instr.nop ≠ .sknp x) ∧ (∀ x nn, Instr.nop ≠ .rnd x nn) ∧
    ∀ x, Instr.nop ≠ .ldKey x := by
  refine ⟨⟨_, rfl⟩, ?_⟩
  simp

theorem witness_FramebufferIsWrittenByClsAndDrw :
    ((2047 : Fin 2048).val = (63 : Fin 64).val + 64 * (31 : Fin 32).val) ∧
    (∃ t, exec .ret State.reset = .next t) ∧ Instr.ret ≠ .cls ∧ ∀ x y n, Instr.ret ≠ .drw x y n :=
  ⟨by decide, ⟨_, rfl⟩, by decide, by simp⟩

/-- FX18 writes ST and no instruction reads it. -/
theorem witness_NoInstructionReadsTheSoundTimer :
    (ran 0xF118 (regs [(1, 0x05)])).isSome = true := by decide

theorem witness_RetPopsTheReturnAddress :
    { State.reset with sp := 1 }.sp = Fin.succ (0 : Fin 16) ∧
    { State.reset with sp := 16 }.sp = Fin.succ (15 : Fin 16) ∧ State.reset.sp = 0 := by decide

theorem witness_CallPushesTheNextAddress :
    State.reset.sp = Fin.castSucc (0 : Fin 16) ∧
    { State.reset with sp := 15 }.sp = Fin.castSucc (15 : Fin 16) ∧
    { State.reset with sp := 16 }.sp = 16 := by decide

theorem witness_CallThenRetReturns :
    ∃ t u : State, { State.reset with sp := 15 }.sp ≠ 16 ∧
      exec (.call 0x210) { State.reset with sp := 15 } = .next t ∧
      u.stack = t.stack ∧ u.sp = t.sp ∧ u.pc ≠ t.pc :=
  ⟨{ State.reset with
      sp := 16, pc := 0x210, stack := State.reset.stack.set 15 0x202 },
    { State.reset with sp := 16, pc := 0x21A, stack := State.reset.stack.set 15 0x202 },
    by decide, rfl, rfl, rfl, by decide⟩

/-- C5: the jump to itself at 0x200. -/
theorem witness_HaltedStepsChangeNothing : (State.reset.withFetchWord 16 0x1200).HaltedAt 0x200 :=
  ⟨rfl, rfl, rfl⟩

/-- The sprite of one set row at the last address of memory. -/
def lastRow : State := withSprite 0xFFF [0xFF] (regs [(0, 0x3C)])

theorem rowsInRange_lastRow : RowsInRange lastRow 1 := fun r h => by
  have : lastRow.i.toNat = 4095 := rfl
  have : r < 1 := h
  omega

theorem covers_lastRow : Covers lastRow 0 1 1 60 0 := ⟨0, 0, by decide⟩

theorem not_covers_lastRow : ¬Covers lastRow 0 1 1 60 31 := by
  rintro ⟨c, r, -, hr, -, -, h⟩
  have : r = 0 := Nat.lt_one_iff.mp hr
  subst this
  exact absurd h (by decide)

/-- The clauses of a draw: covered and uncovered cells, with a collision and without. -/
theorem witness_DrawTogglesCoveredCells :
    RowsInRange lastRow 1 ∧ RowsInRange { State.reset with i := 0xFFFF } 0 ∧
    Covers lastRow 0 1 1 60 0 ∧ ¬Covers lastRow 0 1 1 60 31 :=
  ⟨rowsInRange_lastRow, fun _ h => absurd h (Nat.not_lt_zero _), covers_lastRow, not_covers_lastRow⟩

theorem witness_DrawTogglesCoveredCells_collision :
    RowsInRange { lastRow with fb := State.reset.fb.set 0 (BitVec.twoPow 64 60) } 1 ∧
    Covers { lastRow with fb := State.reset.fb.set 0 (BitVec.twoPow 64 60) } 0 1 1 60 0 ∧
    Framebuffer.lit (State.reset.fb.set 0 (BitVec.twoPow 64 60)) 60 0 = true :=
  ⟨rowsInRange_lastRow, covers_lastRow, by decide⟩

theorem lit_blank (col : Fin 64) (row : Fin 32) : Framebuffer.lit State.reset.fb col row = false := by
  simp [Framebuffer.lit, State.reset]

theorem witness_DrawTogglesCoveredCells_noCollision :
    RowsInRange lastRow 1 ∧
    ¬∃ col row, Covers lastRow 0 1 1 col row ∧ Framebuffer.lit lastRow.fb col row = true := by
  refine ⟨rowsInRange_lastRow, ?_⟩
  rintro ⟨col, row, -, h⟩
  exact absurd (h.symm.trans (lit_blank col row)) (by decide)

theorem witness_DrawOutOfRangeRaises :
    (0 < (1 : Fin 16).val ∧ 4096 ≤ ({ State.reset with i := 0x1000 }).i.toNat + 0) ∧
    (1 < (2 : Fin 16).val ∧ 4096 ≤ ({ State.reset with i := 0xFFF }).i.toNat + 1 ∧
      ∀ r' < 1, ({ State.reset with i := 0xFFF }).i.toNat + r' < 4096) := by decide

theorem witness_DrawingTwiceRestoresTheScreen :
    ∃ t u, RowsInRange lastRow 1 ∧ exec (.drw 0 1 1) lastRow = .next t ∧
      exec (.drw 0 1 1) { t with pc := lastRow.pc, v := lastRow.v } = .next u ∧
      (∀ col row, Framebuffer.lit lastRow.fb col row = false) ∧
      ∃ col row, Covers lastRow 0 1 1 col row :=
  ⟨_, _, rowsInRange_lastRow, rfl, rfl, lit_blank, 60, 0, covers_lastRow⟩

theorem witness_KeySkipsReadTheLatch :
    State.reset.v[(0 : Reg)].toNat = (0 : Fin 16).val ∧
    (regs [(5, 15)]).v[(5 : Reg)].toNat = (15 : Fin 16).val ∧
    16 ≤ (regs [(5, 16)]).v[(5 : Reg)].toNat := by decide

theorem witness_KeyWaitRecordsASetKeyOrReplays :
    (∃ k : Fin 16, (pressing [3, 9] State.reset).keys[k] = true) ∧
    ∀ k : Fin 16, State.reset.keys[k] = false := by decide

theorem witness_AnySetKeyCanBeDrawn :
    (pressing [0, 9, 15] State.reset).keys[(0 : Fin 16)] = true ∧
    (pressing [0, 9, 15] State.reset).keys[(15 : Fin 16)] = true := by decide

theorem witness_WaitingStepsChangeNothing : (State.reset.withFetchWord 16 0xF30A).WaitsForKey 3 :=
  ⟨rfl, by decide, rfl⟩

theorem witness_TickCountsBothTimersDown :
    State.reset.fault = none ∧ faulted.fault = record .decodeFailure 0x200 (some 0xF029) 0xF029 := by
  decide

/-- Also the hypothesis of SoundEventFiresExactlyOnce. -/
theorem witness_DelayTimerStopsAtZero : { State.reset with dt := 255, st := 1 }.fault = none := by decide

theorem witness_SetKeyWritesOneLatch : (15 : Fin 16).val = 15 ∧ 16 ≤ 16 := by decide

theorem witness_LoadCopiesTheImageOrRefuses :
    State.reset.mem.wf = true ∧ (List.replicate 3584 (0x12 : Byte)).length ≤ 3584 ∧
    3583 < (List.replicate 3584 (0x12 : Byte)).length ∧
    3584 < (List.replicate 3585 (0x12 : Byte)).length := by
  refine ⟨by decide, ?_, ?_, ?_⟩ <;> rw [List.length_replicate] <;> decide

theorem witness_FirstStepFetchesTheProgramsFirstWord :
    ([] : List Byte).length + 2 ≤ 3584 ∧ (List.replicate 3582 (0x12 : Byte)).length + 2 ≤ 3584 := by
  refine ⟨by decide, ?_⟩
  rw [List.length_replicate]

end Sys2Proof.Tests
end

namespace Sys2Proof.Machine

/-- An instruction that may raise has a next state, whether its body raises or not (log entry 6). -/
theorem attempt_eq_next (w : Word) (s : State) (body : State → Except Raised State) :
    ∃ t, attempt w s body = .next t := by
  obtain ⟨t, -, hok⟩ | ⟨f, -, hraised⟩ := attempt_cases w s body
  · exact ⟨t, hok⟩
  · exact ⟨s.takeFault (some w) f, hraised⟩

/-- No instruction is refused or stops the model, in any state: the five that may raise are attempts,
all others complete (30_encoding.md R80). -/
theorem exec_eq_next (i : Instr) (s : State) : ∃ t, exec i s = .next t := by
  cases i with
  | ret | call _ | drw _ _ _ | skp _ | sknp _ =>
    simp only [exec, execRet, execCall, execDrw, execSkp, execSknp, attempt_eq_next]
  | _ => exact ⟨_, rfl⟩

/-- Settles O10: a latched fault keeps the state, a fault of the fetch or of the decoding is taken, and
every decoded instruction has a next state. -/
theorem everyStepHasANextState : Obligations.EveryStepHasANextState := by
  intro s
  obtain ⟨_, -, hlatched⟩ | ⟨-, f, -, hfetch⟩ | ⟨-, w, -, -, hdecode⟩ | ⟨-, _, i, -, -, hexec⟩ :=
    step_cases s
  · exact ⟨s, hlatched⟩
  · exact ⟨s.takeFault none f, hfetch⟩
  · exact ⟨s.takeFault (some w) ⟨.decodeFailure, w.toNat⟩, hdecode⟩
  · obtain ⟨t, ht⟩ := exec_eq_next i s
    exact ⟨t, hexec.trans ht⟩

end Sys2Proof.Machine

namespace Sys2Proof.Machine

/-! ## What an execute part that gives a next state did

An instruction that raises nothing has the next state its body computes, so `Host.Outcome.next.inj` gives
it; the lemmas here say it for the five that may raise and for FX0A. -/

/-- The next state of an instruction that may raise: its body's, or the state before it with the fault
latched. -/
theorem attempt_next {w : Word} {s t : State} {body : State → Except Raised State}
    (h : attempt w s body = .next t) :
    body s.advance = .ok t ∨ ∃ f, t = s.takeFault (some w) f := by
  obtain ⟨u, hbody, hu⟩ | ⟨f, -, hf⟩ := attempt_cases w s body
  · obtain rfl : u = t := by simpa [hu] using h
    exact .inl hbody
  · exact .inr ⟨f, by simpa [hf] using h.symm⟩

/-- RET: the popped address is the new `pc`, or the fault is taken (40_control_flow.md R101). -/
theorem exec_ret_next {s t : State} (h : exec .ret s = .next t) :
    (∃ hsp : 0 < s.sp.val,
      t = { s with sp := ⟨s.sp.val - 1, by omega⟩, pc := s.stack[s.sp.val - 1] }) ∨
    ∃ w f, t = s.takeFault w f := by
  unfold exec execRet at h
  obtain hbody | ⟨f, hf⟩ := attempt_next h
  · obtain ⟨hsp, hpop⟩ | ⟨-, hpop⟩ := s.advance.pop_cases
    · rw [hpop] at hbody
      exact .inl ⟨hsp, (Except.ok.inj hbody).symm⟩
    · rw [hpop] at hbody
      cases hbody
  · exact .inr ⟨_, f, hf⟩

/-- CALL: the address after it is pushed, or the fault is taken (40_control_flow.md R103). -/
theorem exec_call_next {nnn : Addr12} {s t : State} (h : exec (.call nnn) s = .next t) :
    (∃ hsp : s.sp.val < 16,
      t = { s with
        stack := s.stack.set s.sp.val (s.pc + 2), sp := ⟨s.sp.val + 1, by omega⟩,
        pc := zext16 nnn }) ∨
    ∃ w f, t = s.takeFault w f := by
  unfold exec execCall at h
  obtain hbody | ⟨f, hf⟩ := attempt_next h
  · obtain ⟨hsp, hpush⟩ | ⟨-, hpush⟩ := s.advance.push_cases s.advance.pc
    · rw [hpush] at hbody
      exact .inl ⟨hsp, (Except.ok.inj hbody).symm⟩
    · rw [hpush] at hbody
      cases hbody
  · exact .inr ⟨_, f, hf⟩

/-- DRW: some framebuffer and some flag are written, or the fault is taken (43_display.md R171). -/
theorem exec_drw_next {x y : Reg} {n : Fin 16} {s t : State} (h : exec (.drw x y n) s = .next t) :
    (∃ fb flag, t = State.setFlag { s.advance with fb := fb } flag) ∨
    ∃ w f, t = s.takeFault w f := by
  unfold exec execDrw at h
  obtain hbody | ⟨f, hf⟩ := attempt_next h
  · obtain ⟨-, hrows⟩ | ⟨-, -, hrows⟩ := spriteRowOutOfRange_cases s.advance.i n
    · rw [hrows] at hbody
      exact .inl ⟨_, _, (Except.ok.inj hbody).symm⟩
    · rw [hrows] at hbody
      cases hbody
  · exact .inr ⟨_, f, hf⟩

/-- The body SKP and SKNP share, for the sense in which each reads the latch: it skips or not, or it
raises. -/
theorem attempt_keySkip_next {w : Word} {s t : State} {x : Reg} {sense : Bool → Bool}
    (h : attempt w s (fun u => (u.keyNamed (u.reg x)).map fun p => u.skipIf (sense p)) = .next t) :
    (∃ c, t = s.advance.skipIf c) ∨ ∃ w f, t = s.takeFault w f := by
  obtain hbody | ⟨f, hf⟩ := attempt_next h
  · obtain ⟨_, hkey⟩ | ⟨-, hkey⟩ := s.advance.keyNamed_cases (s.advance.reg x)
    · rw [hkey] at hbody
      exact .inl ⟨_, (Except.ok.inj hbody).symm⟩
    · rw [hkey] at hbody
      cases hbody
  · exact .inr ⟨_, f, hf⟩

/-- SKP: a skip or none, or the fault is taken (44_timers_keys.md R180). -/
theorem exec_skp_next {x : Reg} {s t : State} (h : exec (.skp x) s = .next t) :
    (∃ c, t = s.advance.skipIf c) ∨ ∃ w f, t = s.takeFault w f :=
  attempt_keySkip_next (sense := id) h

/-- SKNP: a skip or none, or the fault is taken (44_timers_keys.md R181). -/
theorem exec_sknp_next {x : Reg} {s t : State} (h : exec (.sknp x) s = .next t) :
    (∃ c, t = s.advance.skipIf c) ∨ ∃ w f, t = s.takeFault w f :=
  attempt_keySkip_next (sense := not) h

/-- FX0A: a key index is recorded and a draw taken, or the state is as before (44_timers_keys.md R183,
R185). -/
theorem exec_ldKey_next {x : Reg} {s t : State} (h : exec (.ldKey x) s = .next t) :
    (∃ b, t = (s.advance.setReg x b).drewKeysel) ∨ t = s := by
  obtain rfl := Host.Outcome.next.inj h
  beta_reduce
  split
  · exact .inl ⟨_, rfl⟩
  · exact .inr (by simp [State.advance, State.setPc])

/-! ## The frame of an instruction (10_state.md R24 to R32) -/

/-- What the execute part of an instruction leaves unchanged beside `pc` and the general registers. -/
structure ExecFrame (i : Instr) (s t : State) : Prop where
  keys : t.keys = s.keys
  mem : t.mem = s.mem
  stack : (∀ nnn, i ≠ .call nnn) → t.stack = s.stack
  sp : (∀ nnn, i ≠ .call nnn) → i ≠ .ret → t.sp = s.sp
  index : (∀ nnn, i ≠ .ldI nnn) → (∀ x, i ≠ .addI x) → t.i = s.i
  dt : (∀ x, i ≠ .ldToDt x) → t.dt = s.dt
  st : (∀ x, i ≠ .ldToSt x) → t.st = s.st
  fb : i ≠ .cls → (∀ x y n, i ≠ .drw x y n) → t.fb = s.fb
  fault : (∀ nnn, i ≠ .call nnn) → i ≠ .ret → (∀ x y n, i ≠ .drw x y n) → (∀ x, i ≠ .skp x) →
    (∀ x, i ≠ .sknp x) → t.fault = s.fault
  rndDraws : (∀ x nn, i ≠ .rnd x nn) → t.rndDraws = s.rndDraws
  keyselDraws : (∀ x, i ≠ .ldKey x) → t.keyselDraws = s.keyselDraws

/-- Every instruction keeps its frame, whether it completes or its fault is taken. -/
theorem exec_frame {i : Instr} {s t : State} (h : exec i s = .next t) : ExecFrame i s t := by
  cases i with
  | ret => obtain ⟨_, rfl⟩ | ⟨w, f, rfl⟩ := exec_ret_next h <;> constructor <;> simp
  | call nnn => obtain ⟨_, rfl⟩ | ⟨w, f, rfl⟩ := exec_call_next h <;> constructor <;> simp
  | drw x y n => obtain ⟨_, _, rfl⟩ | ⟨w, f, rfl⟩ := exec_drw_next h <;> constructor <;> simp
  | skp x => obtain ⟨_, rfl⟩ | ⟨w, f, rfl⟩ := exec_skp_next h <;> constructor <;> simp
  | sknp x => obtain ⟨_, rfl⟩ | ⟨w, f, rfl⟩ := exec_sknp_next h <;> constructor <;> simp
  | ldKey x => obtain ⟨_, rfl⟩ | rfl := exec_ldKey_next h <;> constructor <;> simp
  | _ =>
    obtain rfl := Host.Outcome.next.inj h
    constructor <;> simp

/-! ## The invariant under a STEP (10_state.md R36) -/

theorem zext16_addr12_le (nnn : Addr12) : (zext16 nnn).toNat ≤ 0xFFF := by
  have := nnn.isLt
  rw [zext16_toNat nnn (by decide)]
  omega

/-- A skip adds 2 to the advanced `pc` or leaves it (40_control_flow.md R109). -/
theorem State.advance_skipIf_pc (s : State) (c : Bool) :
    (s.advance.skipIf c).pc = s.pc + 2 ∨ (s.advance.skipIf c).pc = s.pc + 2 + 2 := by
  cases c
  · exact .inl rfl
  · exact .inr rfl

/-- Where an instruction leaves `pc`: at itself, at the next instruction, at the one after that, at a
jump's target, none of which lies above 0x10FE, or at an outstanding return address
(40_control_flow.md R111). -/
theorem exec_pc {i : Instr} {s t : State} (h : exec i s = .next t) :
    t.pc = s.pc ∨ (t.pc = s.pc + 2 ∨ t.pc = s.pc + 2 + 2) ∨ t.pc.toNat ≤ 0x10FE ∨
    ∃ j : Fin 16, j.val < s.sp.val ∧ t.pc = s.stack[j] := by
  cases i with
  | ret =>
    obtain ⟨hsp, rfl⟩ | ⟨w, f, rfl⟩ := exec_ret_next h
    · have hj : s.sp.val - 1 < 16 := by omega
      have hlt : s.sp.val - 1 < s.sp.val := by omega
      exact .inr (.inr (.inr ⟨⟨s.sp.val - 1, hj⟩, hlt, rfl⟩))
    · exact .inl rfl
  | call nnn =>
    obtain ⟨hsp, rfl⟩ | ⟨w, f, rfl⟩ := exec_call_next h
    · have := zext16_addr12_le nnn
      exact .inr (.inr (.inl (by simp only; omega)))
    · exact .inl rfl
  | jp nnn =>
    obtain rfl := Host.Outcome.next.inj h
    have := zext16_addr12_le nnn
    exact .inr (.inr (.inl (by simp only [State.setPc_pc]; omega)))
  | jpV0 nnn =>
    obtain rfl := Host.Outcome.next.inj h
    have hnnn := zext16_addr12_le nnn
    have hv0 : (zext16 (s.reg V0)).toNat < 256 := by
      rw [zext16_toNat _ (by decide)]
      exact (s.reg V0).isLt
    refine .inr (.inr (.inl ?_))
    simp only [State.setPc_pc, State.advance_reg, BitVec.toNat_add]
    omega
  | drw x y n =>
    obtain ⟨fb, flag, rfl⟩ | ⟨w, f, rfl⟩ := exec_drw_next h
    · exact .inr (.inl (.inl rfl))
    · exact .inl rfl
  | skp x =>
    obtain ⟨c, rfl⟩ | ⟨w, f, rfl⟩ := exec_skp_next h
    · exact .inr (.inl (s.advance_skipIf_pc c))
    · exact .inl rfl
  | sknp x =>
    obtain ⟨c, rfl⟩ | ⟨w, f, rfl⟩ := exec_sknp_next h
    · exact .inr (.inl (s.advance_skipIf_pc c))
    · exact .inl rfl
  | seImm _ _ | sneImm _ _ | seReg _ _ | sneReg _ _ =>
    obtain rfl := Host.Outcome.next.inj h
    exact .inr (.inl (s.advance_skipIf_pc _))
  | ldKey x =>
    obtain ⟨b, rfl⟩ | rfl := exec_ldKey_next h
    · exact .inr (.inl (.inl rfl))
    · exact .inl rfl
  | _ =>
    obtain rfl := Host.Outcome.next.inj h
    exact .inr (.inl (.inl rfl))

/-- An outstanding return address after an instruction was one before it, or a CALL pushed it
(40_control_flow.md R101, R103). -/
theorem exec_stack {i : Instr} {s t : State} (h : exec i s = .next t) {j : Fin 16}
    (hj : j.val < t.sp.val) :
    (j.val < s.sp.val ∧ t.stack[j] = s.stack[j]) ∨ t.stack[j] = s.pc + 2 := by
  cases i with
  | ret =>
    obtain ⟨hsp, rfl⟩ | ⟨w, f, rfl⟩ := exec_ret_next h
    · exact .inl ⟨by simp only at hj; omega, rfl⟩
    · exact .inl ⟨hj, rfl⟩
  | call nnn =>
    obtain ⟨hsp, rfl⟩ | ⟨w, f, rfl⟩ := exec_call_next h
    · by_cases htop : s.sp.val = j.val
      · exact .inr (by simp [htop])
      · refine .inl ⟨by simp only at hj; omega, ?_⟩
        simp [htop]
    · exact .inl ⟨hj, rfl⟩
  | _ =>
    have frame := exec_frame h
    rw [frame.sp nofun nofun] at hj
    exact .inl ⟨hj, by rw [frame.stack nofun]⟩

/-- An instruction takes its fault or leaves the latch (60_exceptions.md R200). -/
theorem exec_fault {i : Instr} {s t : State} (h : exec i s = .next t) :
    (∃ w f, t = s.takeFault w f) ∨ t.fault = s.fault := by
  cases i with
  | ret => exact (exec_ret_next h).symm.imp_right fun ⟨_, e⟩ => e ▸ rfl
  | call nnn => exact (exec_call_next h).symm.imp_right fun ⟨_, e⟩ => e ▸ rfl
  | drw x y n => exact (exec_drw_next h).symm.imp_right fun ⟨_, _, e⟩ => e ▸ rfl
  | skp x => exact (exec_skp_next h).symm.imp_right fun ⟨c, e⟩ => e ▸ s.advance.skipIf_fault c
  | sknp x => exact (exec_sknp_next h).symm.imp_right fun ⟨c, e⟩ => e ▸ s.advance.skipIf_fault c
  | _ => exact .inr ((exec_frame h).fault nofun nofun nofun nofun nofun)

/-- Taking a fault keeps the invariant: the record's address is `pc`, and nothing else changes. -/
theorem State.Invariant.takeFault {s : State} (hs : s.Invariant) (w : Option Word) (f : Raised) :
    (s.takeFault w f).Invariant where
  pcBound := hs.pcBound
  returnAddresses := hs.returnAddresses
  memWf := hs.memWf
  faultAddr := by
    intro record hrecord
    obtain rfl := Option.some.inj hrecord
    rfl

/-- An instruction fetched from an even address below 4096 keeps the invariant: only such a `pc` is
advanced or pushed. -/
theorem State.Invariant.of_exec {i : Instr} {s t : State} (hs : s.Invariant) (hfault : s.fault = none)
    (heven : s.pc.toNat % 2 = 0) (hpc : s.pc.toNat < 4096) (h : exec i s = .next t) :
    t.Invariant := by
  obtain ⟨w, f, rfl⟩ | hlatch := exec_fault h
  · exact hs.takeFault w f
  refine ⟨?_, ?_, ?_, ?_⟩
  · obtain e | (e | e) | hjump | ⟨j, hj, e⟩ := exec_pc h
    · exact e ▸ hs.pcBound
    · rw [e]
      bv_omega
    · rw [e]
      bv_omega
    · exact hjump
    · obtain ⟨-, -, hle⟩ := hs.returnAddresses j hj
      rw [e]
      omega
  · intro j hj
    obtain ⟨hj', e⟩ | e := exec_stack h hj
    · exact e ▸ hs.returnAddresses j hj'
    · rw [e]
      bv_omega
  · exact (exec_frame h).mem ▸ hs.memWf
  · intro f hf
    rw [hlatch, hfault] at hf
    cases hf

/-- Settles O15: a latched fault keeps the state, taking a fault keeps the invariant, and an instruction
is executed only from an even `pc` below 4096. -/
theorem stepKeepsTheInvariant : Obligations.StepKeepsTheInvariant := by
  intro s t hs hstep
  obtain ⟨f, -, e⟩ | ⟨-, f, -, e⟩ | ⟨-, w, -, -, e⟩ | ⟨hfault, w, i, hw, -, e⟩ := step_cases s
  · obtain rfl := Host.Outcome.next.inj (e.symm.trans hstep)
    exact hs
  · obtain rfl := Host.Outcome.next.inj (e.symm.trans hstep)
    exact hs.takeFault none f
  · obtain rfl := Host.Outcome.next.inj (e.symm.trans hstep)
    exact hs.takeFault (some w) _
  · obtain ⟨-, ew⟩ | ⟨-, -, ew⟩ | ⟨heven, hlt, -⟩ := fetchWord_cases s.mem s.pc
    · cases ew.symm.trans hw
    · cases ew.symm.trans hw
    · exact hs.of_exec hfault heven hlt (e.symm.trans hstep)

/-! ## The registers an instruction writes (10_state.md R23) -/

/-- A register other than the one written keeps its value. -/
theorem State.setReg_reg_ne (s : State) {x r : Reg} (h : r ≠ x) (b : Byte) :
    (s.setReg x b).reg r = s.reg r := by
  simp [h.symm]

/-- A register that is neither written nor VF keeps its value. -/
theorem State.setReg_setFlag_reg_ne (s : State) {x r : Reg} (h : r ∉ [x, VF]) (b f : Byte) :
    ((s.setReg x b).setFlag f).reg r = s.reg r := by
  obtain ⟨hx, hf⟩ : r ≠ x ∧ r ≠ VF := by simpa using h
  exact (State.setReg_reg_ne _ hf f).trans (s.setReg_reg_ne hx b)

/-- Settles O20: the instructions group by their write list, x alone, x and VF, VF alone, or none. -/
theorem otherGeneralRegistersKeepTheirValues : Obligations.OtherGeneralRegistersKeepTheirValues := by
  intro i s t r h hr
  change t.reg r = s.reg r
  cases i with
  | ldImm x _ | addImm x _ | ldReg x _ | orReg x _ | andReg x _ | xorReg x _ | rnd x _
  | ldFromDt x =>
    obtain rfl := Host.Outcome.next.inj h
    exact s.advance.setReg_reg_ne (List.ne_of_not_mem_cons hr) _
  | ldKey x =>
    obtain ⟨b, rfl⟩ | rfl := exec_ldKey_next h
    · exact s.advance.setReg_reg_ne (List.ne_of_not_mem_cons hr) b
    · rfl
  | addReg x _ | subReg x _ | shr x _ | subn x _ | shl x _ =>
    obtain rfl := Host.Outcome.next.inj h
    exact s.advance.setReg_setFlag_reg_ne hr _ _
  | drw x y n =>
    obtain ⟨fb, flag, rfl⟩ | ⟨w, f, rfl⟩ := exec_drw_next h
    · exact State.setReg_reg_ne _ (List.ne_of_not_mem_cons hr) flag
    · rfl
  | ret => obtain ⟨_, rfl⟩ | ⟨w, f, rfl⟩ := exec_ret_next h <;> rfl
  | call nnn => obtain ⟨_, rfl⟩ | ⟨w, f, rfl⟩ := exec_call_next h <;> rfl
  | skp x => obtain ⟨c, rfl⟩ | ⟨w, f, rfl⟩ := exec_skp_next h <;> simp
  | sknp x => obtain ⟨c, rfl⟩ | ⟨w, f, rfl⟩ := exec_sknp_next h <;> simp
  | seImm _ _ | sneImm _ _ | seReg _ _ | sneReg _ _ =>
    obtain rfl := Host.Outcome.next.inj h
    exact s.advance.skipIf_reg _ r
  | _ =>
    obtain rfl := Host.Outcome.next.inj h
    rfl

/-! ## The other frames -/

/-- Settles O22, by the frame of each instruction. -/
theorem otherStateKeepsItsValue : Obligations.OtherStateKeepsItsValue := by
  intro i s t h
  have frame := exec_frame h
  exact ⟨frame.keys, fun a => by rw [frame.mem], frame.stack, frame.sp, frame.index, frame.dt,
    frame.st, frame.fb, frame.fault, frame.rndDraws, frame.keyselDraws⟩

/-- The cell at the linear index `col + 64*row` is that of `col` and `row` (10_state.md R30). -/
theorem Framebuffer.litAt_eq_lit (fb : Framebuffer) {col : Fin 64} {row : Fin 32} {k : Fin 2048}
    (h : k.val = col.val + 64 * row.val) : Framebuffer.litAt fb k = Framebuffer.lit fb col row := by
  have hcol : Fin.ofNat 64 k.val = col := Fin.ext (by simp only [Fin.val_ofNat]; omega)
  have hrow : Fin.ofNat 32 (k.val / 64) = row := Fin.ext (by simp only [Fin.val_ofNat]; omega)
  rw [Framebuffer.litAt, hcol, hrow]

/-- Settles O23: the linear index, the frame of each instruction, and READ_FB as it is defined. -/
theorem framebufferIsWrittenByClsAndDrw : Obligations.FramebufferIsWrittenByClsAndDrw := by
  refine ⟨fun fb col row k => fb.litAt_eq_lit, fun i s t h hcls hdrw col row => ?_,
    fun g s => rfl⟩
  rw [(exec_frame h).fb hcls hdrw]

/-! ## What a command leaves unchanged -/

/-- A STEP changes nothing, takes a fault, or executes an instruction. -/
theorem step_next {s t : State} (h : step s = .next t) :
    t = s ∨ (∃ w f, t = s.takeFault w f) ∨ ∃ i, exec i s = .next t := by
  obtain ⟨f, -, e⟩ | ⟨-, f, -, e⟩ | ⟨-, w, -, -, e⟩ | ⟨-, w, i, -, -, e⟩ := step_cases s
  · exact .inl (Host.Outcome.next.inj (h.symm.trans e))
  · exact .inr (.inl ⟨_, _, Host.Outcome.next.inj (h.symm.trans e)⟩)
  · exact .inr (.inl ⟨_, _, Host.Outcome.next.inj (h.symm.trans e)⟩)
  · exact .inr (.inr ⟨i, e.symm.trans h⟩)

/-- No STEP writes a byte of memory or a key latch (10_state.md R29, R32). -/
theorem step_frame {s t : State} (h : step s = .next t) : t.mem = s.mem ∧ t.keys = s.keys := by
  obtain rfl | ⟨w, f, rfl⟩ | ⟨i, hexec⟩ := step_next h
  · exact ⟨rfl, rfl⟩
  · exact ⟨rfl, rfl⟩
  · exact ⟨(exec_frame hexec).mem, (exec_frame hexec).keys⟩

/-- The state a STEP command gives is that of the STEP. -/
theorem stepCommand_next {s t : State} {out : Response} (h : stepCommand s = .next (t, out)) :
    step s = .next t := by
  unfold stepCommand at h
  cases e : step s with
  | next u => simp_all
  | fault f => simp [e] at h
  | refused r => simp [e] at h

/-- TICK changes the timers alone (60_exceptions.md R210). -/
theorem tickCommand_fst (s : State) :
    ∃ dt st, (tickCommand s).1 = { s with dt := dt, st := st } := by
  unfold tickCommand
  split
  · exact ⟨s.dt, s.st, rfl⟩
  · exact ⟨_, _, rfl⟩

/-- SET_KEY changes the key latches alone (60_exceptions.md R215). -/
theorem setKeyCommand_next {k : Nat} {p : Bool} {s t : State} {out : Response}
    (h : setKeyCommand k p s = .next (t, out)) : ∃ keys, t = { s with keys := keys } := by
  unfold setKeyCommand at h
  split at h
  · cases h
    exact ⟨_, rfl⟩
  · cases h

/-- LOAD changes memory alone (70_reset_and_hazards.md R236). -/
theorem loadCommand_fst (bytes : List Byte) (s : State) :
    ∃ mem, (loadCommand bytes s).1 = { s with mem := mem } := by
  obtain ⟨-, e⟩ | ⟨-, e⟩ := loadCommand_cases bytes s
  · exact ⟨_, congrArg Prod.fst e⟩
  · exact ⟨s.mem, congrArg Prod.fst e⟩

/-- LOAD writes no byte below the program base (20_memory.md R53). -/
theorem loadCommand_read_below {s : State} (hs : s.mem.wf = true) (bytes : List Byte) {a : Nat}
    (ha : a < 0x200) : (loadCommand bytes s).1.mem.read a = s.mem.read a := by
  obtain ⟨hlen, e⟩ | ⟨-, e⟩ := loadCommand_cases bytes s <;> rw [e]
  simp only [Config.programCapacity] at hlen
  rw [Memory.read_writeBytes hs _ _ (by simp only [Config.programBase, Config.memSize]; omega),
    dif_neg (by simp only [Config.programBase]; omega)]

/-- Settles O17: LOAD by the bytes it copies, every other command by its frame. -/
theorem memoryIsWrittenOnlyByResetAndLoad : Obligations.MemoryIsWrittenOnlyByResetAndLoad := by
  intro g c s t out hs h hreset a ha
  cases c with
  | reset => exact absurd rfl hreset
  | load bytes =>
    obtain rfl := congrArg Prod.fst (Host.Outcome.next.inj h)
    obtain hlow | hload := ha
    · exact loadCommand_read_below hs bytes hlow
    · exact absurd rfl (hload bytes)
  | step => rw [(step_frame (stepCommand_next h)).1]
  | tick =>
    obtain rfl := congrArg Prod.fst (Host.Outcome.next.inj h)
    obtain ⟨dt, st, e⟩ := tickCommand_fst s
    rw [e]
  | setKey k p =>
    obtain ⟨keys, rfl⟩ := setKeyCommand_next h
    rfl
  | readFb =>
    obtain rfl := congrArg Prod.fst (Host.Outcome.next.inj h)
    rfl

/-- Settles O18, by the frame of each command. -/
theorem keysAreWrittenOnlyBySetKey : Obligations.KeysAreWrittenOnlyBySetKey := by
  intro g c s t out h hreset hkey
  cases c with
  | reset => exact absurd rfl hreset
  | load bytes =>
    obtain rfl := congrArg Prod.fst (Host.Outcome.next.inj h)
    obtain ⟨mem, e⟩ := loadCommand_fst bytes s
    rw [e]
  | step => exact (step_frame (stepCommand_next h)).2
  | tick =>
    obtain rfl := congrArg Prod.fst (Host.Outcome.next.inj h)
    obtain ⟨dt, st, e⟩ := tickCommand_fst s
    rw [e]
  | setKey k p => exact absurd rfl (hkey k p)
  | readFb =>
    obtain rfl := congrArg Prod.fst (Host.Outcome.next.inj h)
    rfl

/-! ## Noninterference of ST (10_state.md R28) -/

/-- An attempt whose body does not read ST is taken to a state that differs in ST alone: its body's, or
the one before it with the same fault latched. -/
theorem attempt_withSt {w : Word} {s t : State} {body : State → Except Raised State} {a : Byte}
    (hbody : ∀ u : State, body { u with st := a } = (body u).map fun u' => { u' with st := a })
    (h : attempt w s body = .next t) :
    attempt w { s with st := a } body = .next { t with st := a } := by
  have hadvance : body (State.advance { s with st := a }) =
      (body s.advance).map fun u' => { u' with st := a } := hbody s.advance
  obtain ⟨u, e, hu⟩ | ⟨f, e, hf⟩ := attempt_cases w s body
  · obtain rfl := Host.Outcome.next.inj (hu.symm.trans h)
    rw [attempt, hadvance, e]
    rfl
  · obtain rfl := Host.Outcome.next.inj (hf.symm.trans h)
    rw [attempt, hadvance, e]
    rfl

theorem State.skipIf_withSt (s : State) (a : Byte) (c : Bool) :
    State.skipIf { s with st := a } c = { s.skipIf c with st := a } := by
  cases c <;> rfl

/-- A pop does not read ST. -/
theorem State.pop_withSt (s : State) (a : Byte) :
    State.pop { s with st := a } = s.pop.map fun p => (p.1, { p.2 with st := a }) := by
  unfold State.pop
  by_cases hsp : 0 < s.sp.val
  · rw [dif_pos hsp, dif_pos hsp]
    rfl
  · rw [dif_neg hsp, dif_neg hsp]
    rfl

/-- A push does not read ST. -/
theorem State.push_withSt (s : State) (a : Byte) (ret : Word) :
    State.push { s with st := a } ret = (s.push ret).map fun u => { u with st := a } := by
  unfold State.push
  by_cases hsp : s.sp.val < Config.stackDepth
  · rw [dif_pos hsp, dif_pos hsp]
    rfl
  · rw [dif_neg hsp, dif_neg hsp]
    rfl

/-- The body SKP and SKNP share does not read ST. -/
theorem attempt_keySkip_withSt {w : Word} {s t : State} {x : Reg} {sense : Bool → Bool} (a : Byte)
    (h : attempt w s (fun u => (u.keyNamed (u.reg x)).map fun p => u.skipIf (sense p)) = .next t) :
    attempt w { s with st := a } (fun u => (u.keyNamed (u.reg x)).map fun p => u.skipIf (sense p)) =
      .next { t with st := a } := by
  refine attempt_withSt (fun u => ?_) h
  have hkey : State.keyNamed { u with st := a } (State.reg { u with st := a } x) =
    u.keyNamed (u.reg x) := rfl
  rw [hkey]
  cases u.keyNamed (u.reg x) with
  | ok p => exact congrArg Except.ok (u.skipIf_withSt a (sense p))
  | error f => rfl

/-- An instruction does not read ST: with another value there it has the same effect, but for the value
of ST. -/
theorem exec_withSt {i : Instr} {s t : State} (a : Byte) (h : exec i s = .next t) :
    ∃ b, exec i { s with st := a } = .next { t with st := b } := by
  cases i with
  | ret =>
    unfold exec execRet at h ⊢
    refine ⟨a, attempt_withSt (fun u => ?_) h⟩
    rw [State.pop_withSt]
    cases u.pop <;> rfl
  | call nnn =>
    unfold exec execCall at h ⊢
    refine ⟨a, attempt_withSt (fun u => ?_) h⟩
    rw [State.push_withSt]
    cases u.push u.pc <;> rfl
  | drw x y n =>
    unfold exec execDrw at h ⊢
    refine ⟨a, attempt_withSt (fun u => ?_) h⟩
    dsimp only
    cases spriteRowOutOfRange u.i n <;> rfl
  | skp x => exact ⟨a, attempt_keySkip_withSt (sense := id) a h⟩
  | sknp x => exact ⟨a, attempt_keySkip_withSt (sense := not) a h⟩
  | seImm _ _ | sneImm _ _ | seReg _ _ | sneReg _ _ =>
    obtain rfl := Host.Outcome.next.inj h
    exact ⟨a, congrArg _ (s.advance.skipIf_withSt a _)⟩
  | ldKey x =>
    obtain rfl := Host.Outcome.next.inj h
    refine ⟨a, congrArg Host.Outcome.next ?_⟩
    have hkeys : State.pressedKeys (State.advance { s with st := a }) = s.advance.pressedKeys := rfl
    beta_reduce
    rw [hkeys]
    cases s.advance.pressedKeys <;> rfl
  | ldToSt x =>
    obtain rfl := Host.Outcome.next.inj h
    exact ⟨s.reg x, rfl⟩
  | _ =>
    obtain rfl := Host.Outcome.next.inj h
    exact ⟨a, rfl⟩

/-- Settles O24: neither the fetch nor the decoding reads ST, and no instruction does. -/
theorem noInstructionReadsTheSoundTimer : Obligations.NoInstructionReadsTheSoundTimer := by
  intro s t a h
  obtain ⟨f, hf, e⟩ | ⟨hf, f, hw, e⟩ | ⟨hf, w, hw, hd, e⟩ | ⟨hf, w, i, hw, hd, e⟩ := step_cases s
  · obtain rfl := Host.Outcome.next.inj (e.symm.trans h)
    exact ⟨a, step_of_faulted hf⟩
  · obtain rfl := Host.Outcome.next.inj (e.symm.trans h)
    exact ⟨a, by simp [step, fetchDecode, hf, hw, State.takeFault]⟩
  · obtain rfl := Host.Outcome.next.inj (e.symm.trans h)
    exact ⟨a, by simp [step, fetchDecode, hf, hw, hd, State.takeFault]⟩
  · obtain ⟨b, hb⟩ := exec_withSt a (e.symm.trans h)
    exact ⟨b, by simpa [step, fetchDecode, hf, hw, hd] using hb⟩

/-! ## The reset state (10_state.md R37) -/

/-- Settles O14: the reset stack is empty and its latch clear. -/
theorem resetMeetsTheInvariant : Obligations.ResetMeetsTheInvariant := fun g =>
  { pcBound := show (0x200#16).toNat ≤ 0x10FE by decide
    returnAddresses := fun _ hj => absurd hj (Nat.not_lt_zero _)
    memWf := resetWith_wf g
    faultAddr := nofun }

/-- Bytes that each address reads as unlisted leave an empty memory empty. -/
theorem Memory.writeBytes_nil_of_unlisted {a : Nat} {bs : List Byte}
    (h : ∀ (j : Nat) (hj : j < bs.length), bs[j] = Memory.unlisted (a + j)) :
    Memory.writeBytes [] a bs = [] := by
  induction bs generalizing a with
  | nil => rfl
  | cons b rest ih =>
    have hb : Memory.write [] a b = [] := if_pos (h 0 (Nat.zero_lt_succ _))
    rw [Memory.writeBytes, hb]
    refine ih fun j hj => ?_
    rw [Nat.add_right_comm]
    exact h (j + 1) (Nat.succ_lt_succ hj)

/-- Settles O59: an unlisted address reads as the default GLYPH, so its reset memory lists nothing. -/
theorem resetStateHasTheDefaultGlyph : Obligations.ResetStateHasTheDefaultGlyph := by
  have hmem : Memory.writeBytes [] 0 defaultGlyph.toList = [] :=
    Memory.writeBytes_nil_of_unlisted fun j hj => by
      have hj : j < Config.glyphSize := by simpa using hj
      simp [Memory.unlisted, hj]
  refine ⟨?_, by decide, by decide⟩
  rw [State.resetWith, hmem]
  rfl

end Sys2Proof.Machine

namespace Sys2Proof.Machine.Memory

/-! ## The canonical form determines memory (log entry 10) -/

theorem wfFrom_cons {lo k : Nat} {b : Byte} {rest : Memory} :
    wfFrom lo ((k, b) :: rest) = true ↔
      lo ≤ k ∧ k < Config.memSize ∧ b ≠ unlisted k ∧ rest.wfFrom (k + 1) = true := by
  simp [wfFrom, and_assoc]

/-- The first listed address tells a canonical memory from one that lists only higher addresses. -/
theorem read_cons_ne {lo k : Nat} {b : Byte} {rest m : Memory}
    (h : wfFrom lo ((k, b) :: rest) = true) (hm : m.wfFrom (k + 1) = true) :
    Memory.read ((k, b) :: rest) k ≠ m.read k := by
  obtain ⟨-, -, hb, -⟩ := wfFrom_cons.mp h
  rw [read_eq_unlisted_of_lt hm k.lt_succ_self, read, if_pos rfl]
  exact hb

/-- Canonical memories with one head entry that read alike have tails that read alike: at the head's
address neither tail lists a byte. -/
theorem read_tail_eq {k : Nat} {b : Byte} {rest rest' : Memory}
    (hrest : rest.wfFrom (k + 1) = true) (hrest' : rest'.wfFrom (k + 1) = true)
    (hread : ∀ a, Memory.read ((k, b) :: rest) a = Memory.read ((k, b) :: rest') a) (a : Nat) :
    rest.read a = rest'.read a := by
  by_cases ha : a = k
  · rw [read_eq_unlisted_of_lt hrest (by omega), read_eq_unlisted_of_lt hrest' (by omega)]
  · simpa [read, ha] using hread a

/-- Canonical memories that read alike are equal: the least address listed by one is the least listed by
the other, with the same byte, and so on along the tails. -/
theorem eq_of_read_eq {m m' : Memory} {lo : Nat} (hm : m.wfFrom lo = true)
    (hm' : m'.wfFrom lo = true) (hread : ∀ a, m.read a = m'.read a) : m = m' := by
  induction m generalizing m' lo with
  | nil =>
    cases m' with
    | nil => rfl
    | cons c' rest' => exact absurd (hread c'.1).symm (read_cons_ne hm' rfl)
  | cons c rest ih =>
    obtain ⟨k, b⟩ := c
    cases m' with
    | nil => exact absurd (hread k) (read_cons_ne hm rfl)
    | cons c' rest' =>
      obtain ⟨k', b'⟩ := c'
      obtain ⟨-, hk, hb, hrest⟩ := wfFrom_cons.mp hm
      obtain ⟨-, hk', hb', hrest'⟩ := wfFrom_cons.mp hm'
      obtain hlt | rfl | hgt := Nat.lt_trichotomy k k'
      · exact absurd (hread k) (read_cons_ne hm (wfFrom_cons.mpr ⟨hlt, hk', hb', hrest'⟩))
      · obtain rfl : b = b' := by simpa [read] using hread k
        rw [ih hrest hrest' (read_tail_eq hrest hrest' hread)]
      · exact absurd (hread k').symm (read_cons_ne hm' (wfFrom_cons.mpr ⟨hgt, hk, hb, hrest⟩))

end Sys2Proof.Machine.Memory

namespace Sys2Proof.Machine

/-- Settles O19: the canonical form from address 0 on. -/
theorem equalReadsAreEqualMemories : Obligations.EqualReadsAreEqualMemories :=
  fun _ _ => Memory.eq_of_read_eq

/-! ## The fetch (20_memory.md R54, R55, R57) -/

/-- The big-endian word as a number. -/
theorem bigEndianWord_eq_ofNat (hi lo : Byte) :
    bigEndianWord hi lo = BitVec.ofNat 16 (hi.toNat * 256 + lo.toNat) := by
  apply BitVec.eq_of_toNat_eq
  have hlo : lo.toNat < 2 ^ 8 := lo.isLt
  rw [bigEndianWord, BitVec.toNat_append, ← Nat.shiftLeft_add_eq_or_of_lt hlo, Nat.shiftLeft_eq,
    BitVec.toNat_ofNat, Nat.mod_eq_of_lt (by omega)]

/-- The bytes of a word, in memory order, make it up again. -/
theorem bigEndianWord_extractLsb' (w : Word) :
    bigEndianWord (w.extractLsb' 8 8) (w.extractLsb' 0 8) = w :=
  (BitVec.extractLsb'_append_extractLsb'_eq_extractLsb' rfl).trans BitVec.extractLsb'_eq_self

/-- Settles O7, by the three outcomes of a fetch. -/
theorem fetchReadsBigEndianOrRaises : Obligations.FetchReadsBigEndianOrRaises := by
  intro m pc
  obtain ⟨hodd, e⟩ | ⟨heven, (hge : 4096 ≤ _), e⟩ | ⟨heven, (hlt : _ < 4096), e⟩ :=
    fetchWord_cases m pc
  · exact ⟨fun _ => e, fun _ => by omega, fun _ => by omega⟩
  · exact ⟨fun _ => by omega, fun _ _ => e, fun _ _ => by omega⟩
  · exact ⟨fun _ => by omega, fun _ _ => by omega, fun _ _ => by rw [e, bigEndianWord_eq_ofNat]⟩

/-- An even `pc` fetches the first two of the bytes that were written there. -/
theorem fetchWord_writeBytes {m : Memory} (hm : m.wf = true) {pc : Word} (heven : pc.toNat % 2 = 0)
    (hi lo : Byte) (rest : List Byte) (hfit : pc.toNat + (rest.length + 2) ≤ Config.memSize) :
    fetchWord (m.writeBytes pc.toNat (hi :: lo :: rest)) pc = .ok (bigEndianWord hi lo) := by
  obtain ⟨hodd, -⟩ | ⟨-, hge, -⟩ | ⟨-, -, e⟩ :=
    fetchWord_cases (m.writeBytes pc.toNat (hi :: lo :: rest)) pc
  · omega
  · omega
  · rw [e, Memory.read_writeBytes hm _ _ hfit, Memory.read_writeBytes hm _ _ hfit]
    simp

/-- A fetchable `pc` is even, and its word lies in memory. -/
theorem fetchablePc_toNat (pc : Word) :
    (fetchablePc pc).toNat % 2 = 0 ∧ (fetchablePc pc).toNat + 2 ≤ Config.memSize := by
  unfold fetchablePc
  split
  next => decide
  next h =>
    obtain ⟨hbit, hlt⟩ : pc.getLsbD 0 = false ∧ pc.toNat + 1 < Config.memSize := by simpa using h
    exact ⟨by simpa [BitVec.getLsbD, Nat.testBit_zero] using hbit, hlt⟩

/-- A placed word is what the next fetch reads. -/
theorem fetchWord_placeWord {s : State} (hs : s.mem.wf = true) (w : Word) :
    fetchWord (s.placeWord w).mem (s.placeWord w).pc = .ok w := by
  obtain ⟨heven, hfit⟩ := fetchablePc_toNat s.pc
  exact (fetchWord_writeBytes hs heven _ _ [] hfit).trans
    (congrArg Except.ok (bigEndianWord_extractLsb' w))

/-- Settles O11: the table word of 16 bits is the word itself. -/
theorem placedWordIsFetchedNext : Obligations.PlacedWordIsFetchedNext := by
  intro s w hs
  have hword : tableWord 16 w = BitVec.ofNat 16 w :=
    BitVec.eq_of_toNat_eq (by simp [tableWord])
  exact ⟨hword ▸ fetchWord_placeWord hs (tableWord 16 w), rfl⟩

end Sys2Proof.Machine

namespace Sys2Proof

/-! ## The encoder and the decoder are inverse (30_encoding.md R74, R82) -/

/-- Every instruction's word selects the row of the map that builds it back. -/
theorem ownRow (i : Instr) : Laws.OwnRow.Statement i := by
  cases i with
  | nop => exact Laws.OwnRow.nop
  | cls => exact Laws.OwnRow.cls
  | ret => exact Laws.OwnRow.ret
  | jp nnn => exact Laws.OwnRow.jp nnn
  | call nnn => exact Laws.OwnRow.call nnn
  | seImm x nn => exact Laws.OwnRow.seImm x nn
  | sneImm x nn => exact Laws.OwnRow.sneImm x nn
  | seReg x y => exact Laws.OwnRow.seReg x y
  | ldImm x nn => exact Laws.OwnRow.ldImm x nn
  | addImm x nn => exact Laws.OwnRow.addImm x nn
  | ldReg x y => exact Laws.OwnRow.ldReg x y
  | orReg x y => exact Laws.OwnRow.orReg x y
  | andReg x y => exact Laws.OwnRow.andReg x y
  | xorReg x y => exact Laws.OwnRow.xorReg x y
  | addReg x y => exact Laws.OwnRow.addReg x y
  | subReg x y => exact Laws.OwnRow.subReg x y
  | shr x y => exact Laws.OwnRow.shr x y
  | subn x y => exact Laws.OwnRow.subn x y
  | shl x y => exact Laws.OwnRow.shl x y
  | sneReg x y => exact Laws.OwnRow.sneReg x y
  | ldI nnn => exact Laws.OwnRow.ldI nnn
  | jpV0 nnn => exact Laws.OwnRow.jpV0 nnn
  | rnd x nn => exact Laws.OwnRow.rnd x nn
  | drw x y n => exact Laws.OwnRow.drw x y n
  | skp x => exact Laws.OwnRow.skp x
  | sknp x => exact Laws.OwnRow.sknp x
  | ldFromDt x => exact Laws.OwnRow.ldFromDt x
  | ldKey x => exact Laws.OwnRow.ldKey x
  | ldToDt x => exact Laws.OwnRow.ldToDt x
  | ldToSt x => exact Laws.OwnRow.ldToSt x
  | addI x => exact Laws.OwnRow.addI x

/-- Settles O2: the row an instruction's word selects decides its decoding, and builds the instruction
back. -/
theorem decodeOfEncodeIsTheInstruction : Obligations.DecodeOfEncodeIsTheInstruction := by
  intro i
  obtain ⟨r, hmem, hselects, hbuild⟩ := ownRow i
  rw [decodeWord_of_row hmem hselects, hbuild]

/-! Putting each field of a word back in its place masks the word with the field's mask. -/

theorem extractLsb'_shiftLeft_eq_and (w : Word) (start len : Nat) :
    (w.extractLsb' start len).setWidth 16 <<< start =
      w &&& ((BitVec.allOnes len).setWidth 16 <<< start) := by
  apply BitVec.eq_of_getLsbD_eq
  intro j hj
  by_cases hlow : j < start
  · simp [hlow]
  · have hbit : start + (j - start) = j := by omega
    simp [hlow, hbit, Bool.and_comm, Bool.and_left_comm, Bool.and_assoc]

/-- A field of 4 bits as an index, put back in its place. -/
theorem ofNat_toFin_shiftLeft (w : Word) (start : Nat) :
    BitVec.ofNat 16 (w.extractLsb' start 4).toFin.val <<< start = w &&& 0x000F#16 <<< start := by
  rw [BitVec.val_toFin, BitVec.ofNat_toNat]
  exact extractLsb'_shiftLeft_eq_and w start 4

theorem putX_fieldX (w : Word) : putX (fieldX w) = w &&& 0x0F00#16 := ofNat_toFin_shiftLeft w 8

theorem putY_fieldY (w : Word) : putY (fieldY w) = w &&& 0x00F0#16 := ofNat_toFin_shiftLeft w 4

theorem putN_fieldN (w : Word) : putN (fieldN w) = w &&& 0x000F#16 := by
  simpa [putN, fieldN] using ofNat_toFin_shiftLeft w 0

theorem putNN_fieldNN (w : Word) : putNN (fieldNN w) = w &&& 0x00FF#16 := by
  simpa [putNN, fieldNN] using extractLsb'_shiftLeft_eq_and w 0 8

theorem putNNN_fieldNNN (w : Word) : putNNN (fieldNNN w) = w &&& 0x0FFF#16 := by
  simpa [putNNN, fieldNNN] using extractLsb'_shiftLeft_eq_and w 0 12

/-! The fields of each format, put back over the bits its mask fixes, make up the word
(30_encoding.md R73). -/

theorem refill_nnn {w c : Word} (h : w &&& 0xF000#16 = c) : c ||| putNNN (fieldNNN w) = w := by
  rw [← h, putNNN_fieldNNN, ← BitVec.and_or_distrib_left]
  exact BitVec.and_allOnes

theorem refill_xnn {w c : Word} (h : w &&& 0xF000#16 = c) :
    c ||| putX (fieldX w) ||| putNN (fieldNN w) = w := by
  rw [← h, putX_fieldX, putNN_fieldNN, ← BitVec.and_or_distrib_left, ← BitVec.and_or_distrib_left]
  exact BitVec.and_allOnes

theorem refill_xy {w c : Word} (h : w &&& 0xF00F#16 = c) :
    c ||| putX (fieldX w) ||| putY (fieldY w) = w := by
  rw [← h, putX_fieldX, putY_fieldY, ← BitVec.and_or_distrib_left, ← BitVec.and_or_distrib_left]
  exact BitVec.and_allOnes

theorem refill_xyn {w c : Word} (h : w &&& 0xF000#16 = c) :
    c ||| putX (fieldX w) ||| putY (fieldY w) ||| putN (fieldN w) = w := by
  rw [← h, putX_fieldX, putY_fieldY, putN_fieldN, ← BitVec.and_or_distrib_left,
    ← BitVec.and_or_distrib_left, ← BitVec.and_or_distrib_left]
  exact BitVec.and_allOnes

theorem refill_x {w c : Word} (h : w &&& 0xF0FF#16 = c) : c ||| putX (fieldX w) = w := by
  rw [← h, putX_fieldX, ← BitVec.and_or_distrib_left]
  exact BitVec.and_allOnes

/-- Encoding what a row builds from a word it selects gives the word, by the row's format. -/
theorem encode_build {r : OpcodeRow} (hmem : r ∈ opcodeTable) {w : Word}
    (hselects : r.selects w = true) : encode (r.build w) = w := by
  have hmask : w &&& r.mask = r.pattern := beq_iff_eq.mp hselects
  simp only [opcodeTable, List.mem_append] at hmem
  obtain ((hZN | hXNN) | hXY) | hXF := hmem
  · simp only [opcodeRowsZN, List.mem_cons, List.not_mem_nil, or_false] at hZN
    obtain rfl | rfl | rfl | rfl | rfl | rfl | rfl := hZN
    · exact hmask.symm.trans BitVec.and_allOnes
    · exact hmask.symm.trans BitVec.and_allOnes
    · exact hmask.symm.trans BitVec.and_allOnes
    all_goals exact refill_nnn hmask
  · simp only [opcodeRowsXNN, List.mem_cons, List.not_mem_nil, or_false] at hXNN
    obtain rfl | rfl | rfl | rfl | rfl := hXNN
    all_goals exact refill_xnn hmask
  · simp only [opcodeRowsXY, List.mem_cons, List.not_mem_nil, or_false] at hXY
    obtain rfl | rfl | rfl | rfl | rfl | rfl | rfl | rfl | rfl | rfl | rfl | rfl := hXY
    on_goal 12 => exact refill_xyn hmask
    all_goals exact refill_xy hmask
  · simp only [opcodeRowsXF, List.mem_cons, List.not_mem_nil, or_false] at hXF
    obtain rfl | rfl | rfl | rfl | rfl | rfl | rfl := hXF
    all_goals exact refill_x hmask

/-- Settles O3, by the row that selects the word. -/
theorem encodeOfDecodeIsTheWord : Obligations.EncodeOfDecodeIsTheWord := by
  intro w i hdecode
  obtain ⟨r, hmem, hselects, e⟩ | ⟨-, e⟩ := decodeWord_cases w
  · obtain rfl := Option.some.inj (e.symm.trans hdecode)
    exact encode_build hmem hselects
  · cases e.symm.trans hdecode

/-! ## The illegal words (30_encoding.md R75, R76, R77) -/

/-- A word that some row apart from all rows of the map selects is illegal. -/
theorem decodeWord_eq_none_of_apart {q : OpcodeRow} {w : Word}
    (hapart : ∀ r ∈ opcodeTable, q.apart r = true) (hselects : q.selects w = true) :
    decodeWord w = none := by
  obtain ⟨r, hmem, hr, -⟩ | ⟨-, e⟩ := decodeWord_cases w
  · cases hr.symm.trans (OpcodeRow.apart_selects (hapart r hmem) hselects)
  · exact e

/-- A word is illegal exactly when no row of the decoder's table selects it. -/
theorem decodeWord_eq_none_iff (w : Word) :
    decodeWord w = none ↔ ∀ r ∈ opcodeTable, w &&& r.mask ≠ r.pattern := by
  simp [decodeWord, OpcodeRow.selects]

/-- The decoder's table, ordered by format, holds the masks and matches of the map. -/
theorem opcodeTable_perm_opcodeMap :
    (opcodeTable.map fun r => (r.mask, r.pattern)).Perm Claims.opcodeMap := by decide

/-- A word FXbb is illegal when the row of that one low byte bb would be apart from every row of the
map. -/
theorem decodeWord_FX_eq_none {w b : Word} (hnibble : w &&& 0xF000#16 = 0xF000#16)
    (hbyte : w &&& 0x00FF#16 = b)
    (hapart : ∀ r ∈ opcodeTable, OpcodeRow.apart ⟨0xF0FF, 0xF000#16 ||| b, fun _ => .nop⟩ r = true) :
    decodeWord w = none := by
  refine decodeWord_eq_none_of_apart hapart (beq_iff_eq.mpr ?_)
  calc w &&& 0xF0FF#16
    _ = (w &&& 0xF000#16) ||| (w &&& 0x00FF#16) :=
      BitVec.and_or_distrib_left (x := w) (y := 0xF000#16) (z := 0x00FF#16)
    _ = 0xF000#16 ||| b := by rw [hnibble, hbyte]

/-- Settles O4: the decoder's table has the rows of the map, and the four words of the FX group are
apart from all of them. -/
theorem exactlyUnmatchedWordsAreIllegal : Obligations.ExactlyUnmatchedWordsAreIllegal := by
  refine ⟨fun w => ?_, fun w hnibble hbyte => ?_⟩
  · rw [decodeWord_eq_none_iff]
    simp only [← opcodeTable_perm_opcodeMap.mem_iff, List.forall_mem_map]
  · obtain h | h | h | h := hbyte
    all_goals exact decodeWord_FX_eq_none hnibble h (by decide)

/-- Settles O5: of two rows at different places each is apart from the other. -/
theorem noWordSelectsTwoRows : Obligations.NoWordSelectsTwoRows := by
  intro w j k hj hk
  have hapart := List.pairwise_iff_getElem.mp opcodeTable_apart
  obtain hlt | heq | hgt := Nat.lt_trichotomy j.val k.val
  · cases hk.symm.trans (OpcodeRow.apart_selects (hapart j k j.isLt k.isLt hlt) hj)
  · exact Fin.ext heq
  · cases hj.symm.trans (OpcodeRow.apart_selects (hapart k j k.isLt j.isLt hgt) hk)

/-! A mask of the map fixes the major nibble, and with it the low nibble or the low byte. -/

/-- Two words agree under a field's mask exactly when they have the same field. -/
theorem and_eq_and_iff_extractLsb'_eq (w c : Word) {start len : Nat} (h : start + len ≤ 16) :
    w &&& ((BitVec.allOnes len).setWidth 16 <<< start) =
      c &&& ((BitVec.allOnes len).setWidth 16 <<< start) ↔
    w.extractLsb' start len = c.extractLsb' start len := by
  constructor
  · intro hand
    apply BitVec.eq_of_getLsbD_eq
    intro j hj
    have hbit := congrArg (·.getLsbD (start + j)) hand
    simpa [hj, show start + j < 16 by omega, show j < 16 by omega] using hbit
  · intro hfield
    rw [← extractLsb'_shiftLeft_eq_and, hfield, extractLsb'_shiftLeft_eq_and]

/-- Two words agree under two masks together exactly when they agree under each. -/
theorem and_or_eq_and_or_iff (w c m m' : Word) :
    w &&& (m ||| m') = c &&& (m ||| m') ↔ w &&& m = c &&& m ∧ w &&& m' = c &&& m' := by
  have absorb (m m' : Word) : (m ||| m') &&& m = m := by
    apply BitVec.eq_of_getLsbD_eq
    intro j hj
    rw [BitVec.getLsbD_and, BitVec.getLsbD_or, Bool.and_comm]
    exact inf_sup_self
  constructor
  · intro h
    exact ⟨by simpa only [BitVec.and_assoc, absorb] using congrArg (· &&& m) h,
      by simpa only [BitVec.and_assoc, BitVec.or_comm m m', absorb] using congrArg (· &&& m') h⟩
  · rintro ⟨h, h'⟩
    rw [BitVec.and_or_distrib_left, BitVec.and_or_distrib_left, h, h']

theorem and_F000_eq_iff {w c : Word} (hc : c &&& 0xF000 = c) :
    w &&& 0xF000 = c ↔ (w.extractLsb' 12 4).toNat = (c.extractLsb' 12 4).toNat :=
  (Eq.congr_right hc.symm).trans <|
    (and_eq_and_iff_extractLsb'_eq w c (start := 12) (len := 4) (by decide)).trans
      BitVec.toNat_inj.symm

/-- The mask of the major nibble and of a field of the lowest `len` bits. -/
theorem and_major_or_low_eq_iff {w c m : Word} {len : Nat} (hlen : 0 + len ≤ 16)
    (hm : m = 0xF000 ||| (BitVec.allOnes len).setWidth 16 <<< 0) (hc : c &&& m = c) :
    w &&& m = c ↔
      (w.extractLsb' 12 4).toNat = (c.extractLsb' 12 4).toNat ∧
      (w.extractLsb' 0 len).toNat = (c.extractLsb' 0 len).toNat := by
  rw [BitVec.toNat_inj, BitVec.toNat_inj, Eq.congr_right hc.symm, hm, and_or_eq_and_or_iff]
  exact and_congr (and_eq_and_iff_extractLsb'_eq w c (start := 12) (len := 4) (by decide))
    (and_eq_and_iff_extractLsb'_eq w c hlen)

theorem and_F00F_eq_iff {w c : Word} (hc : c &&& 0xF00F = c) :
    w &&& 0xF00F = c ↔
      (w.extractLsb' 12 4).toNat = (c.extractLsb' 12 4).toNat ∧
      (w.extractLsb' 0 4).toNat = (c.extractLsb' 0 4).toNat :=
  and_major_or_low_eq_iff (by decide) (by decide) hc

theorem and_F0FF_eq_iff {w c : Word} (hc : c &&& 0xF0FF = c) :
    w &&& 0xF0FF = c ↔
      (w.extractLsb' 12 4).toNat = (c.extractLsb' 12 4).toNat ∧
      (w.extractLsb' 0 8).toNat = (c.extractLsb' 0 8).toNat :=
  and_major_or_low_eq_iff (by decide) (by decide) hc

theorem and_FFFF_eq_iff {w c : Word} :
    w &&& 0xFFFF = c ↔ (w.extractLsb' 12 4).toNat = (c.extractLsb' 12 4).toNat ∧ w = c := by
  have hall : w &&& 0xFFFF = w := BitVec.and_allOnes
  rw [hall]
  exact ⟨fun h => ⟨by rw [h], h⟩, fun ⟨_, h⟩ => h⟩

/-- A word decodes exactly when a row of the decoder's table selects it. -/
theorem decodeWord_isSome_iff (w : Word) :
    (decodeWord w).isSome = true ↔ ∃ r ∈ opcodeTable, w &&& r.mask = r.pattern := by
  simp [Option.isSome_iff_ne_none, decodeWord_eq_none_iff]

/-- Settles O6: each row fixes the major nibble, and for each of its 16 values the rows that remain are
those the prose map lists. -/
theorem decoderAgreesWithTheProseMap : Obligations.DecoderAgreesWithTheProseMap := by
  intro w
  rw [Bool.eq_iff_iff, decodeWord_isSome_iff]
  simp (disch := decide) only [opcodeTable, opcodeRowsZN, opcodeRowsXNN, opcodeRowsXY,
    opcodeRowsXF, List.cons_append, List.nil_append, List.exists_mem_cons_iff, List.not_mem_nil,
    false_and, exists_false, or_false, and_FFFF_eq_iff, and_F000_eq_iff, and_F00F_eq_iff,
    and_F0FF_eq_iff]
  unfold wordWellFormed
  have hmajor : (w.extractLsb' 12 4).toNat < 16 := (w.extractLsb' 12 4).isLt
  generalize (w.extractLsb' 12 4).toNat = major at hmajor ⊢
  generalize (w.extractLsb' 0 4).toNat = d
  generalize (w.extractLsb' 0 8).toNat = low
  interval_cases major
  -- Major nibble 8: `d ≤ 7` of the prose map stands for the rows of the low nibbles 0 to 7.
  on_goal 9 => simp; omega
  all_goals simp [or_assoc]

/-! ## Decoding bytes in memory order (20_memory.md R57) -/

/-- Two bytes decode to an instruction exactly when their word does. -/
theorem decodeBytes_pair_eq_ok_iff (hi lo : Byte) (i : Instr) :
    decodeBytes [hi, lo] = .ok (i, []) ↔ decodeWord (bigEndianWord hi lo) = some i := by
  cases h : decodeWord (bigEndianWord hi lo) <;> simp [decodeBytes, h]

/-- Two bytes whose word is illegal are rejected with that word. -/
theorem decodeBytes_pair_eq_error {hi lo : Byte} (h : decodeWord (bigEndianWord hi lo) = none) :
    decodeBytes [hi, lo] = .error (.noRow (bigEndianWord hi lo)) := by
  simp [decodeBytes, h]

/-- The bytes of an instruction's word decode to it. -/
theorem decodeBytes_of_encode {hi lo : Byte} {i : Instr} (h : bigEndianWord hi lo = encode i) :
    decodeBytes [hi, lo] = .ok (i, []) :=
  (decodeBytes_pair_eq_ok_iff hi lo i).mpr (h ▸ decodeOfEncodeIsTheInstruction i)

/-- Settles O1: eleven pairs of bytes make the words of the instructions, and FX29 is illegal. -/
theorem writtenWordsDecode : Obligations.WrittenWordsDecode :=
  ⟨decodeBytes_of_encode (by decide), decodeBytes_of_encode (by decide),
    decodeBytes_of_encode (by decide), decodeBytes_of_encode (by decide),
    decodeBytes_of_encode (by decide), decodeBytes_of_encode (by decide),
    decodeBytes_of_encode (by decide), decodeBytes_of_encode (by decide),
    decodeBytes_of_encode (by decide), decodeBytes_of_encode (by decide),
    decodeBytes_of_encode (by decide),
    decodeBytes_pair_eq_error (exactlyUnmatchedWordsAreIllegal.2 _ (by decide) (.inl (by decide)))⟩

end Sys2Proof

namespace Sys2Proof.Machine

/-- A STEP with no fault latched executes the instruction of the word it fetches
(30_encoding.md R80). -/
theorem step_eq_exec {s : State} {w : Word} {i : Instr} (hfault : s.fault = none)
    (hfetch : fetchWord s.mem s.pc = .ok w) (hdecode : decodeWord w = some i) :
    step s = exec i s := by
  simp [step, fetchDecode, hfault, hfetch, hdecode]

/-- Settles O8: an even `pc` below 4096 fetches the big-endian word of the two bytes there. -/
theorem stepRunsTheDecodedInstruction : Obligations.StepRunsTheDecodedInstruction := by
  intro s i hfault heven (hlt : _ < Config.memSize) hbytes
  obtain ⟨hodd, -⟩ | ⟨-, hge, -⟩ | ⟨-, -, hfetch⟩ := fetchWord_cases s.mem s.pc
  · omega
  · omega
  · exact step_eq_exec hfault hfetch ((decodeBytes_pair_eq_ok_iff _ _ i).mp hbytes)

end Sys2Proof.Machine

namespace Sys2Proof

/-! ## The encoding of an instruction rule (00_scope.md R14)

The operand fields by bit extraction (30_encoding.md R72) are those the statements take by arithmetic, so
a row of the map is the encoding of its instruction, format by format. -/

open Claims

theorem toFin_extractLsb'_four (w : Word) (start : Nat) :
    (w.extractLsb' start 4).toFin = Fin.ofNat 16 (w.toNat / 2 ^ start) :=
  Fin.ext (by simp [Nat.shiftRight_eq_div_pow])

theorem fieldX_eq_wordX (w : Word) : fieldX w = wordX w := toFin_extractLsb'_four w 8

theorem fieldY_eq_wordY (w : Word) : fieldY w = wordY w := toFin_extractLsb'_four w 4

theorem fieldNN_eq_wordNN (w : Word) : fieldNN w = wordNN w :=
  BitVec.eq_of_toNat_eq (by simp [fieldNN, wordNN])

theorem fieldNNN_eq_wordNNN (w : Word) : fieldNNN w = wordNNN w :=
  BitVec.eq_of_toNat_eq (by simp [fieldNNN, wordNNN])

/-- A word with the mask and match of the map's row at place k decodes to what the row builds. -/
theorem encodes_of_row {mask pattern : Word} {i : Word → Instr} (k : Nat)
    (hrow : opcodeTable[k]? = some ⟨mask, pattern, i⟩) : Encodes mask pattern i :=
  fun _ hw => decodeWord_of_row (List.mem_of_getElem? hrow) (beq_iff_eq.mpr hw)

/-- Format NNN (30_encoding.md R73). -/
theorem encodes_nnn {c : Word} {i : Addr12 → Instr} (k : Nat)
    (hrow : opcodeTable[k]? = some ⟨0xF000, c, fun w => i (fieldNNN w)⟩) :
    Encodes 0xF000 c (fun w => i (wordNNN w)) := by
  simpa only [fieldNNN_eq_wordNNN] using encodes_of_row k hrow

/-- Format XNN (30_encoding.md R73). -/
theorem encodes_xnn {c : Word} {i : Reg → Byte → Instr} (k : Nat)
    (hrow : opcodeTable[k]? = some ⟨0xF000, c, fun w => i (fieldX w) (fieldNN w)⟩) :
    Encodes 0xF000 c (fun w => i (wordX w) (wordNN w)) := by
  simpa only [fieldX_eq_wordX, fieldNN_eq_wordNN] using encodes_of_row k hrow

/-- Format XYF (30_encoding.md R73). -/
theorem encodes_xy {c : Word} {i : Reg → Reg → Instr} (k : Nat)
    (hrow : opcodeTable[k]? = some ⟨0xF00F, c, fun w => i (fieldX w) (fieldY w)⟩) :
    Encodes 0xF00F c (fun w => i (wordX w) (wordY w)) := by
  simpa only [fieldX_eq_wordX, fieldY_eq_wordY] using encodes_of_row k hrow

/-- An address fills bits that a row's match leaves clear, so the word of format NNN is a sum. -/
theorem or_putNNN_eq_add {c : Word} (hc : c &&& 0xF000#16 = c) (nnn : Addr12) :
    c ||| putNNN nnn = c + putNNN nnn := by
  have hdisjoint : c &&& putNNN nnn = 0#16 := by
    rw [← hc, BitVec.and_assoc, BitVec.and_comm 0xF000#16, putNNN_mask]
    exact BitVec.and_zero
  exact (BitVec.add_eq_or_of_and_eq_zero c (putNNN nnn) hdisjoint).symm

theorem encode_call (nnn : Addr12) : encode (.call nnn) = BitVec.ofNat 16 (0x2000 + nnn.toNat) := by
  rw [BitVec.ofNat_add, BitVec.ofNat_toNat]
  exact or_putNNN_eq_add (by decide) nnn

end Sys2Proof

namespace Sys2Proof.Machine

/-! ## The operations of control flow, outcome by outcome -/

theorem attempt_of_ok {w : Word} {s t : State} {body : State → Except Raised State}
    (h : body s.advance = .ok t) : attempt w s body = .next t := by
  rw [attempt, h]

theorem attempt_of_error {w : Word} {s : State} {f : Raised} {body : State → Except Raised State}
    (h : body s.advance = .error f) : attempt w s body = .next (s.takeFault (some w) f) := by
  rw [attempt, h]

/-- A pop of a stack with j + 1 entries gives the entry j and keeps it (92_eei_decisions.md D25). -/
theorem State.pop_of_sp_eq_succ (s : State) {j : Fin 16} (h : s.sp = j.succ) :
    s.pop = .ok (s.stack[j], { s with sp := j.castSucc }) := by
  obtain ⟨_, hpop⟩ | ⟨hempty, -⟩ := s.pop_cases
  · rw [hpop]
    simp only [h]
    rfl
  · simp [h] at hempty

theorem State.pop_of_sp_eq_zero (s : State) (h : s.sp = 0) :
    s.pop = .error ⟨.stackUnderflow, 0⟩ := by
  obtain ⟨hsp, -⟩ | ⟨-, hpop⟩ := s.pop_cases
  · simp [h] at hsp
  · exact hpop

/-- A push onto a stack with j entries writes the entry j. -/
theorem State.push_of_sp_eq_castSucc (s : State) {j : Fin 16} (h : s.sp = j.castSucc) (a : Word) :
    s.push a = .ok { s with stack := s.stack.set j a, sp := j.succ } := by
  obtain ⟨_, hpush⟩ | ⟨hfull, -⟩ := s.push_cases a
  · rw [hpush]
    simp only [h]
    rfl
  · rw [h] at hfull
    exact absurd hfull j.isLt.ne

theorem State.push_of_sp_eq_sixteen (s : State) (h : s.sp = 16) (a : Word) :
    s.push a = .error ⟨.stackOverflow, 16⟩ := by
  obtain ⟨hsp, -⟩ | ⟨-, hpush⟩ := s.push_cases a
  · simp [h] at hsp
  · exact hpush

/-- An instruction that may skip and does nothing else: its condition is read after the advance, and a
skip adds 2 to the advanced `pc` (40_control_flow.md R109). -/
theorem complete_skipIf (s : State) (skips : State → Bool) :
    complete s (fun t => t.skipIf (skips t)) =
      .next { s with pc := if skips s.advance then s.pc + 4 else s.pc + 2 } := by
  have hfour : s.pc + 2 + 2 = s.pc + 4 := BitVec.add_assoc s.pc 2 2
  rw [complete, State.skipIf_eq, State.advance_pc, hfour]
  rfl

/-! ## RET and CALL (40_control_flow.md R101, R103) -/

theorem exec_ret_of_sp_eq_succ {s : State} {j : Fin 16} (h : s.sp = j.succ) :
    exec .ret s = .next { s with sp := j.castSucc, pc := s.stack[j] } := by
  unfold exec execRet
  exact attempt_of_ok (congrArg (Except.map _) (s.advance.pop_of_sp_eq_succ h))

theorem exec_ret_of_sp_eq_zero {s : State} (h : s.sp = 0) :
    exec .ret s = .next { s with fault := some ⟨.stackUnderflow, s.pc, some 0x00EE, 0⟩ } := by
  unfold exec execRet
  exact attempt_of_error (f := ⟨.stackUnderflow, 0⟩)
    (congrArg (Except.map _) (s.advance.pop_of_sp_eq_zero h))

theorem exec_call_of_sp_eq_castSucc {s : State} {j : Fin 16} (h : s.sp = j.castSucc) (nnn : Addr12) :
    exec (.call nnn) s = .next { s with
      stack := s.stack.set j (s.pc + 2), sp := j.succ, pc := BitVec.ofNat 16 nnn.toNat } := by
  rw [BitVec.ofNat_toNat]
  unfold exec execCall
  exact attempt_of_ok (congrArg (Except.map _) (s.advance.push_of_sp_eq_castSucc h s.advance.pc))

theorem exec_call_of_sp_eq_sixteen {s : State} (h : s.sp = 16) (nnn : Addr12) :
    exec (.call nnn) s = .next { s with
      fault := some ⟨.stackOverflow, s.pc, some (BitVec.ofNat 16 (0x2000 + nnn.toNat)), 16⟩ } := by
  rw [← encode_call]
  unfold exec execCall
  exact attempt_of_error (f := ⟨.stackOverflow, 16⟩)
    (congrArg (Except.map _) (s.advance.push_of_sp_eq_sixteen h s.advance.pc))

/-- Settles O29: the CALL wrote the entry that the RET reads, whatever else changed in between. -/
theorem callThenRetReturns : Obligations.CallThenRetReturns := by
  intro nnn s t u hroom hcall hstack hsp
  obtain ⟨j, hj⟩ := Fin.exists_castSucc_eq.mpr hroom
  obtain rfl := Host.Outcome.next.inj ((exec_call_of_sp_eq_castSucc hj.symm nnn).symm.trans hcall)
  have hentry : u.stack[j] = s.pc + 2 := by simp [hstack]
  rw [exec_ret_of_sp_eq_succ hsp, hentry, hj]

/-- Settles O26, by the two outcomes of a pop. -/
theorem retPopsTheReturnAddress : Obligations.RetPopsTheReturnAddress :=
  ⟨encodes_of_row 2 rfl, fun _ _ => exec_ret_of_sp_eq_succ, fun _ => exec_ret_of_sp_eq_zero⟩

/-- Settles O28, by the two outcomes of a push. -/
theorem callPushesTheNextAddress : Obligations.CallPushesTheNextAddress :=
  ⟨encodes_nnn 4 rfl, fun nnn _ _ h => exec_call_of_sp_eq_castSucc h nnn,
    fun nnn _ h => exec_call_of_sp_eq_sixteen h nnn⟩

/-! ## NOP and the jumps (40_control_flow.md R100, R102, R108) -/

/-- Settles O25: the fetch's advance is all of it. -/
theorem nopOnlyAdvances : Obligations.NopOnlyAdvances :=
  ⟨encodes_of_row 0 rfl, fun _ => rfl⟩

/-- Settles O27: the target overwrites the advanced `pc`. -/
theorem jumpWritesTheAddress : Obligations.JumpWritesTheAddress := by
  refine ⟨encodes_nnn 3 rfl, fun nnn s => ?_⟩
  rw [BitVec.ofNat_toNat]
  rfl

/-- Settles O34: zero extension to 16 bits makes the sum one of words. -/
theorem jumpWithOffsetAddsV0 : Obligations.JumpWithOffsetAddsV0 := by
  refine ⟨encodes_nnn 6 rfl, fun nnn s => ?_⟩
  rw [BitVec.ofNat_add, BitVec.ofNat_toNat, BitVec.ofNat_toNat]
  rfl

/-! ## The skips (40_control_flow.md R104 to R107) -/

/-- Settles O30, by the rule for an instruction that may skip. -/
theorem skipIfEqualImmediate : Obligations.SkipIfEqualImmediate := by
  refine ⟨encodes_xnn 7 rfl, fun x nn s => ?_⟩
  exact (complete_skipIf s fun t => t.reg x == nn).trans (by simp [State.reg_def])

/-- Settles O31: a skip on `≠` is the other branch of one on `=`. -/
theorem skipIfNotEqualImmediate : Obligations.SkipIfNotEqualImmediate := by
  refine ⟨encodes_xnn 8 rfl, fun x nn s => ?_⟩
  exact (complete_skipIf s fun t => t.reg x != nn).trans (by simp [State.reg_def])

/-- Settles O32, by the rule for an instruction that may skip. -/
theorem skipIfRegistersEqual : Obligations.SkipIfRegistersEqual := by
  refine ⟨encodes_xy 12 rfl, fun x y s => ?_⟩
  exact (complete_skipIf s fun t => t.reg x == t.reg y).trans (by simp [State.reg_def])

theorem sneRegWith_table (x y : Reg) (s : State) :
    sneRegWith .table x y s =
      .next { s with pc := if s.v[x] = s.v[y] then s.pc + 2 else s.pc + 4 } := by
  exact (complete_skipIf s fun t => t.reg x != t.reg y).trans (by simp [State.reg_def])

/-- A register compared with itself never skips. -/
theorem sneRegWith_reference (x y : Reg) (s : State) :
    sneRegWith .reference x y s = .next { s with pc := s.pc + 2 } := by
  exact (complete_skipIf s fun t => t.reg x != t.reg x).trans (by simp)

/-- Settles O33: the machine's meaning is that of its parameter, which has one of the two values. -/
theorem skipIfRegistersDifferByParameter : Obligations.SkipIfRegistersDifferByParameter := by
  refine ⟨encodes_xy 22 rfl, sneRegWith_table, sneRegWith_reference, fun x y s => ?_⟩
  change sneRegWith Config.p9xy0 x y s = _
  cases Config.p9xy0 with
  | table => exact sneRegWith_table x y s
  | reference => exact sneRegWith_reference x y s

end Sys2Proof.Machine

namespace Sys2Proof.Machine

open Claims

/-! ## Byte arithmetic as the statements write it (41_alu.md R142) -/

theorem ofNat_sum_mod_eq_add (a b : Byte) : BitVec.ofNat 8 ((a.toNat + b.toNat) % 256) = a + b := by
  apply BitVec.eq_of_toNat_eq
  simp [BitVec.toNat_add]

theorem ofNat_difference_mod_eq_sub (a b : Byte) :
    BitVec.ofNat 8 ((a.toNat + 256 - b.toNat) % 256) = a - b := by
  bv_omega

theorem ofNat_half_eq_ushiftRight (a : Byte) : BitVec.ofNat 8 (a.toNat / 2) = a >>> 1 := by
  apply BitVec.eq_of_toNat_eq
  rw [BitVec.toNat_ofNat, BitVec.toNat_ushiftRight, Nat.shiftRight_one]
  omega

theorem ofNat_double_mod_eq_shiftLeft (a : Byte) :
    BitVec.ofNat 8 (a.toNat * 2 % 256) = a <<< 1 := by
  apply BitVec.eq_of_toNat_eq
  rw [BitVec.toNat_ofNat, BitVec.toNat_shiftLeft, Nat.shiftLeft_eq]
  omega

/-- Bit 0 as a number (41_alu.md R138). -/
theorem shiftedOutRight_eq_ofNat (a : Byte) :
    shiftedOutRight a = BitVec.ofNat 8 (a.toNat % 2) := by
  rw [shiftedOutRight_eq]
  obtain h | h := Nat.mod_two_eq_zero_or_one a.toNat <;> simp [h]

/-- Bit 7 as a number (41_alu.md R140). -/
theorem shiftedOutLeft_eq_ofNat (a : Byte) :
    shiftedOutLeft a = BitVec.ofNat 8 (a.toNat / 128) := by
  rw [shiftedOutLeft_eq]
  by_cases h : 128 ≤ a.toNat
  · have hone : a.toNat / 128 = 1 := by omega
    rw [if_pos h, hone]
    rfl
  · have hzero : a.toNat / 128 = 0 := by omega
    rw [if_neg h, hzero]
    rfl

/-! ## The two forms of an ALU instruction (41_alu.md, introduction) -/

/-- A result without a flag, computed from the registers before it. -/
theorem writeResult_eq_next (s : State) (x : Reg) (result : State → Byte) :
    writeResult s x result =
      .next { s with pc := s.pc + 2, v := s.v.set x (result s.advance) } :=
  rfl

/-- A result, then a flag, which is written over the result where VF is the destination. -/
theorem writeResultAndFlag_eq_next {s : State} {x : Reg} {result flag : State → Byte} {r f : Byte}
    (hresult : result s.advance = r) (hflag : flag s.advance = f) :
    writeResultAndFlag s x result flag =
      .next { s with pc := s.pc + 2, v := (s.v.set x r).set VF f } := by
  subst hresult hflag
  rfl

/-! ## The instructions that write a flag (41_alu.md R136 to R140) -/

/-- Settles O38: the byte sum wraps at 256, where the exact sum carries. -/
theorem addWritesSumThenCarry : Obligations.AddWritesSumThenCarry := by
  refine ⟨encodes_xy 17 rfl, fun x y s => ?_⟩
  unfold exec execAddReg
  exact writeResultAndFlag_eq_next (ofNat_sum_mod_eq_add _ _).symm (carryFlag_eq _ _)

/-- Settles O39: both are the subtraction rule, with the operands in either order. -/
theorem subtractionsWriteDifferenceThenNotBorrow :
    Obligations.SubtractionsWriteDifferenceThenNotBorrow := by
  refine ⟨encodes_xy 18 rfl, encodes_xy 20 rfl, fun x y s => ⟨?_, ?_⟩⟩
  · unfold exec execSubReg
    exact writeResultAndFlag_eq_next (ofNat_difference_mod_eq_sub _ _).symm (notBorrowFlag_eq _ _)
  · unfold exec execSubn
    exact writeResultAndFlag_eq_next (ofNat_difference_mod_eq_sub _ _).symm (notBorrowFlag_eq _ _)

/-- Settles O40: a shift halves or doubles the byte, and the bit it loses is its parity or its top
bit. -/
theorem shiftsWriteResultThenBitShiftedOut : Obligations.ShiftsWriteResultThenBitShiftedOut := by
  refine ⟨encodes_xy 19 rfl, encodes_xy 21 rfl, fun x y s => ⟨?_, ?_⟩⟩
  · unfold exec execShr
    exact writeResultAndFlag_eq_next (ofNat_half_eq_ushiftRight _).symm (shiftedOutRight_eq_ofNat _)
  · unfold exec execShl
    exact writeResultAndFlag_eq_next (ofNat_double_mod_eq_shiftLeft _).symm
      (shiftedOutLeft_eq_ofNat _)

/-! ## VF as the flag register (10_state.md R22, 41_alu.md R143) -/

/-- An instruction with an arithmetic flag writes some result first and the flag over it. -/
theorem exec_of_aluFlag {i : Instr} {s : State} {f : Byte} (h : aluFlag s i = some f) :
    ∃ (x : Reg) (r : Byte),
      exec i s = .next { s with pc := s.pc + 2, v := (s.v.set x r).set VF f } := by
  obtain ⟨-, hadd⟩ := addWritesSumThenCarry
  obtain ⟨-, -, hsub⟩ := subtractionsWriteDifferenceThenNotBorrow
  obtain ⟨-, -, hshift⟩ := shiftsWriteResultThenBitShiftedOut
  cases i with
  | addReg x y => exact ⟨x, _, Option.some.inj h ▸ hadd x y s⟩
  | subReg x y => exact ⟨x, _, Option.some.inj h ▸ (hsub x y s).1⟩
  | subn x y => exact ⟨x, _, Option.some.inj h ▸ (hsub x y s).2⟩
  | shr x y => exact ⟨x, _, Option.some.inj h ▸ (hshift x y s).1⟩
  | shl x y => exact ⟨x, _, Option.some.inj h ▸ (hshift x y s).2⟩
  | _ => cases h

/-- An instruction that writes no flag writes its destination register, if it has one, and no other
(10_state.md R23). -/
theorem regsWritten_eq_destination {i : Instr} (h : writesFlag i = false) :
    regsWritten i = (destination i).toList := by
  cases i with
  | addReg _ _ | subReg _ _ | shr _ _ | subn _ _ | shl _ _ | drw _ _ _ => cases h
  | _ => rfl

/-- Settles O21: the flag is the last write, and VF is outside the write list of every instruction
that has it neither as flag nor as destination. -/
theorem flagRegisterIsWrittenLast : Obligations.FlagRegisterIsWrittenLast := by
  refine ⟨fun i s f h => ?_, fun i s t hflag hdest h => ?_⟩
  · obtain ⟨x, r, hexec⟩ := exec_of_aluFlag h
    exact ⟨_, hexec, Vector.getElem_set_self VF.isLt⟩
  · refine otherGeneralRegistersKeepTheirValues i s t VF h ?_
    rw [regsWritten_eq_destination hflag, Option.mem_toList]
    exact hdest

/-! ## The instructions that write no flag (41_alu.md R130 to R135, R141, R143) -/

/-- Settles O36: neither writes a flag, and the byte sum wraps at 256. -/
theorem immediateLoadAndAdd : Obligations.ImmediateLoadAndAdd := by
  refine ⟨encodes_xnn 9 rfl, encodes_xnn 10 rfl, fun x nn s => ⟨?_, ?_⟩⟩
  · exact writeResult_eq_next s x fun _ => nn
  · rw [ofNat_sum_mod_eq_add]
    exact writeResult_eq_next s x fun t => t.reg x + nn

/-- Settles O37, by the rule for a result without a flag. -/
theorem copyAndLogicInstructions : Obligations.CopyAndLogicInstructions :=
  ⟨encodes_xy 13 rfl, encodes_xy 14 rfl, encodes_xy 15 rfl, encodes_xy 16 rfl, fun x y s =>
    ⟨writeResult_eq_next s x fun t => t.reg y,
      writeResult_eq_next s x fun t => t.reg x ||| t.reg y,
      writeResult_eq_next s x fun t => t.reg x &&& t.reg y,
      writeResult_eq_next s x fun t => t.reg x ^^^ t.reg y⟩⟩

/-- The draw the counter names is masked and written, and the counter moves on (log entry 3). -/
theorem rndWith_eq_next (draw : Nat → Byte) (x : Reg) (nn : Byte) (s : State) :
    rndWith draw x nn s = .next { s with
      pc := s.pc + 2, v := s.v.set x (draw s.rndDraws &&& nn), rndDraws := s.rndDraws + 1 } :=
  rfl

/-- Settles O41: the machine's own draws are one of the sources. -/
theorem randomByteIsMaskedAndOneDrawTaken : Obligations.RandomByteIsMaskedAndOneDrawTaken :=
  ⟨encodes_xnn 11 rfl, rndWith_eq_next, rndWith_eq_next Config.rnd⟩

end Sys2Proof.Machine

namespace Sys2Proof

open Claims

/-- Format XF (30_encoding.md R73). -/
theorem encodes_x {c : Word} {i : Reg → Instr} (k : Nat)
    (hrow : opcodeTable[k]? = some ⟨0xF0FF, c, fun w => i (fieldX w)⟩) :
    Encodes 0xF0FF c (fun w => i (wordX w)) := by
  simpa only [fieldX_eq_wordX] using encodes_of_row k hrow

end Sys2Proof

namespace Sys2Proof.Machine

/-! ## The index register instructions (42_index.md R160, R161) -/

theorem ofNat_toNat_eq_zext16 (nnn : Addr12) : BitVec.ofNat 16 nnn.toNat = zext16 nnn :=
  BitVec.ofNat_toNat 16 nnn

/-- The index sum wraps at 16 bits, so it is a sum of words. -/
theorem ofNat_sum_mod_eq_add_zext16 (i : Word) (b : Byte) :
    BitVec.ofNat 16 ((i.toNat + b.toNat) % 65536) = i + zext16 b := by
  apply BitVec.eq_of_toNat_eq
  rw [BitVec.toNat_ofNat, BitVec.toNat_add, zext16_toNat b (by decide), Nat.mod_mod]

/-- Settles O42: both complete with the index overwritten, for ADD by the sum of words. -/
theorem indexLoadAndAdd : Obligations.IndexLoadAndAdd := by
  refine ⟨encodes_nnn 5 rfl, encodes_x 30 rfl, fun nnn s => ?_, fun x s => ?_⟩
  · rw [ofNat_toNat_eq_zext16]
    rfl
  · rw [ofNat_sum_mod_eq_add_zext16]
    rfl

end Sys2Proof.Machine

namespace Sys2Proof

open Claims

theorem fieldN_eq_wordN (w : Word) : fieldN w = wordN w := by
  simp [fieldN, wordN]

/-- Format XYN (30_encoding.md R73). -/
theorem encodes_xyn {c : Word} {i : Reg → Reg → Fin 16 → Instr} (k : Nat)
    (hrow : opcodeTable[k]? = some ⟨0xF000, c, fun w => i (fieldX w) (fieldY w) (fieldN w)⟩) :
    Encodes 0xF000 c (fun w => i (wordX w) (wordY w) (wordN w)) := by
  simpa only [fieldX_eq_wordX, fieldY_eq_wordY, fieldN_eq_wordN] using encodes_of_row k hrow

/-- Three fields of 4 bits below a match's nibble do not overlap, so they add up. -/
theorem or_shiftLeft_fields_eq_add (c : Nat) (x y n : Fin 16) :
    c <<< 12 ||| x.val <<< 8 ||| y.val <<< 4 ||| n.val =
      c * 4096 + x.val * 256 + y.val * 16 + n.val := by
  have hn : y.val <<< 4 + n.val = y.val <<< 4 ||| n.val :=
    Nat.shiftLeft_add_eq_or_of_lt (by omega) _
  have hy : x.val <<< 8 + (y.val <<< 4 + n.val) = x.val <<< 8 ||| (y.val <<< 4 + n.val) :=
    Nat.shiftLeft_add_eq_or_of_lt (by omega) _
  have hx : c <<< 12 + (x.val <<< 8 + (y.val <<< 4 + n.val)) =
      c <<< 12 ||| (x.val <<< 8 + (y.val <<< 4 + n.val)) :=
    Nat.shiftLeft_add_eq_or_of_lt (by omega) _
  rw [Nat.or_assoc, Nat.or_assoc, ← hn, ← hy, ← hx]
  omega

theorem ofNat_shiftLeft_eq (a k : Nat) : BitVec.ofNat 16 (a <<< k) = BitVec.ofNat 16 a <<< k := by
  apply BitVec.eq_of_toNat_eq
  simp [Nat.shiftLeft_eq]

theorem encode_drw (x y : Reg) (n : Fin 16) :
    encode (.drw x y n) =
      BitVec.ofNat 16 (0xD000 + x.val * 256 + y.val * 16 + n.val) := by
  rw [← or_shiftLeft_fields_eq_add 13 x y n, BitVec.ofNat_or, BitVec.ofNat_or, BitVec.ofNat_or,
    ofNat_shiftLeft_eq x.val, ofNat_shiftLeft_eq y.val]
  rfl

end Sys2Proof

namespace Sys2Proof.Machine

open Claims

/-! ## CLS (43_display.md R170) -/

/-- Settles O43: the framebuffer written is the blank one. -/
theorem clsClearsEveryCell : Obligations.ClsClearsEveryCell :=
  ⟨encodes_of_row 1 rfl, fun _ => ⟨Framebuffer.blank, rfl, Framebuffer.lit_blank⟩⟩

/-! ## The range check of a sprite's rows (43_display.md R171) -/

theorem spriteRowOutOfRange_eq_none {s : State} {n : Fin 16} (h : RowsInRange s n) :
    spriteRowOutOfRange s.i n = none := by
  obtain ⟨-, hnone⟩ | ⟨hpos, hout, -⟩ := spriteRowOutOfRange_cases s.i n
  · exact hnone
  · have hlast := h (n.val - 1) (by omega)
    simp only [Config.memSize] at hout
    omega

/-- The first row out of range lies at I if I is out of range itself, and else at 4096. -/
theorem spriteRowOutOfRange_eq_some {i : Word} {n r : Nat} (hr : r < n) (hout : 4096 ≤ i.toNat + r)
    (hlow : ∀ r' < r, i.toNat + r' < 4096) : spriteRowOutOfRange i n = some (i.toNat + r) := by
  have hmax : max i.toNat Config.memSize = i.toNat + r := by
    cases r with
    | zero => exact Nat.max_eq_left hout
    | succ k =>
      have hprev := hlow k (Nat.lt_succ_self k)
      simp only [Config.memSize]
      omega
  obtain ⟨hin, -⟩ | ⟨-, -, hsome⟩ := spriteRowOutOfRange_cases i n
  · simp only [Config.memSize] at hin
    omega
  · rw [hsome, hmax]

/-! ## DRW, outcome by outcome (43_display.md R171) -/

/-- The cells a sprite's set bits land on, in the order of R171's loops. -/
def coveredCells (s : State) (x y : Reg) (n : Fin 16) : List FbCell :=
  spriteCells (s.v[x].toNat % 64) (s.v[y].toNat % 32) (spriteRows s.mem s.i n)

/-- The framebuffer a draw leaves, and whether it turned a lit cell unlit. -/
def drawnSprite (s : State) (x y : Reg) (n : Fin 16) : DrawState :=
  drawSprite (s.v[x].toNat % 64) (s.v[y].toNat % 32) (spriteRows s.mem s.i n) s.fb

theorem mem_coveredCells {s : State} {x y : Reg} {n : Fin 16} {col : Fin 64} {row : Fin 32} :
    (col, row) ∈ coveredCells s x y n ↔ Covers s x y n col row := by
  simp only [coveredCells, mem_spriteCells, spriteRows_length, spriteRows_getElem, spriteBit, Covers,
    exists_prop]

/-- A draw toggles the covered cells and no other (43_display.md R171, R173). -/
theorem lit_drawnSprite (s : State) (x y : Reg) (n : Fin 16) (col : Fin 64) (row : Fin 32) :
    Framebuffer.lit (drawnSprite s x y n).1 col row =
      (Framebuffer.lit s.fb col row ^^ decide ((col, row) ∈ coveredCells s x y n)) := by
  obtain ⟨hlit, -⟩ := drawSprite_spec (s.v[x].toNat % 64) (s.v[y].toNat % 32)
    (rows := spriteRows s.mem s.i n) (by rw [spriteRows_length]; omega) s.fb
  exact hlit col row

/-- A draw collides where a covered cell was lit before it (43_display.md R174). -/
theorem drawnSprite_collides_iff (s : State) (x y : Reg) (n : Fin 16) :
    (drawnSprite s x y n).2 = true ↔
      ∃ col row, Covers s x y n col row ∧ Framebuffer.lit s.fb col row = true := by
  obtain ⟨-, hcoll⟩ := drawSprite_spec (s.v[x].toNat % 64) (s.v[y].toNat % 32)
    (rows := spriteRows s.mem s.i n) (by rw [spriteRows_length]; omega) s.fb
  rw [drawnSprite, hcoll, List.any_eq_true, Prod.exists]
  exact exists_congr fun col => exists_congr fun row => and_congr_left fun _ => mem_coveredCells

theorem exec_drw_of_rowsInRange {s : State} {n : Fin 16} (h : RowsInRange s n) (x y : Reg) :
    exec (.drw x y n) s = .next { s with
      pc := s.pc + 2
      fb := (drawnSprite s x y n).1
      v := s.v.set VF (flagByte (drawnSprite s x y n).2) } := by
  unfold exec execDrw
  refine attempt_of_ok ?_
  rw [State.advance_i, spriteRowOutOfRange_eq_none h]
  rfl

theorem exec_drw_of_rowOutOfRange {s : State} {n : Fin 16} {a : Nat}
    (h : spriteRowOutOfRange s.i n = some a) (x y : Reg) :
    exec (.drw x y n) s =
      .next (s.takeFault (some (encode (.drw x y n))) ⟨.memOutOfRange, a⟩) := by
  unfold exec execDrw
  refine attempt_of_error ?_
  rw [State.advance_i, h]

/-- Settles O44: a draw flips the list of covered cells, in which no cell stands twice. -/
theorem drawTogglesCoveredCells : Obligations.DrawTogglesCoveredCells := by
  refine ⟨encodes_xyn 23 rfl, fun x y n s hrows =>
    ⟨_, _, exec_drw_of_rowsInRange hrows x y, fun col row hcov => ?_, fun col row hcov => ?_,
      fun hcoll => ?_, fun hcoll => ?_⟩⟩
  · rw [lit_drawnSprite, decide_eq_true (mem_coveredCells.mpr hcov), Bool.xor_true]
  · rw [lit_drawnSprite, decide_eq_false (mt mem_coveredCells.mp hcov), Bool.xor_false]
  · rw [(drawnSprite_collides_iff s x y n).mpr hcoll, flagByte_true]
  · rw [Bool.eq_false_iff.mpr (mt (drawnSprite_collides_iff s x y n).mp hcoll), flagByte_false]

/-- Settles O45: the lowest address out of range is the first row's that fails the check. -/
theorem drawOutOfRangeRaises : Obligations.DrawOutOfRangeRaises := by
  intro x y n s r hr hout hlow
  rw [exec_drw_of_rowOutOfRange (spriteRowOutOfRange_eq_some hr hout hlow), encode_drw]
  rfl

/-- Settles O46: a sprite without rows passes the range check and draws nothing. -/
theorem drawOfNoRowsOnlyClearsTheFlag : Obligations.DrawOfNoRowsOnlyClearsTheFlag :=
  fun x y _ => exec_drw_of_rowsInRange (fun _ h => absurd h (Nat.not_lt_zero _)) x y

/-- Settles O47: both draws cover the same cells, and a cell toggled twice is as it was. -/
theorem drawingTwiceRestoresTheScreen : Obligations.DrawingTwiceRestoresTheScreen := by
  intro x y n s t u hrows hfirst hsecond
  obtain ⟨-, hdraw⟩ := drawTogglesCoveredCells
  obtain ⟨fb, coll, hexec, htoggled, hkept, -, hclear⟩ := hdraw x y n s hrows
  obtain rfl := Host.Outcome.next.inj (hexec.symm.trans hfirst)
  obtain ⟨fb', coll', hexec', htoggled', hkept', hset', -⟩ := hdraw x y n { s with fb := fb } hrows
  obtain rfl := Host.Outcome.next.inj (hexec'.symm.trans hsecond)
  refine ⟨Framebuffer.ext_lit fun col row => ?_, fun hblank hcover => ⟨?_, ?_⟩⟩
  · by_cases hcov : Covers s x y n col row
    · rw [htoggled' col row hcov, htoggled col row hcov, Bool.not_not]
    · rw [hkept' col row hcov, hkept col row hcov]
  · have hcoll : coll = 0 := hclear fun ⟨col, row, _, hlit⟩ => by simp [hblank] at hlit
    exact (Vector.getElem_set_self VF.isLt).trans hcoll
  · obtain ⟨col, row, hcov⟩ := hcover
    have hlit : Framebuffer.lit fb col row = true := by simp [htoggled col row hcov, hblank]
    exact (Vector.getElem_set_self VF.isLt).trans (hset' ⟨col, row, hcov, hlit⟩)

end Sys2Proof.Machine

namespace Sys2Proof

/-- A register index fills bits that a row's match leaves clear, so the word of format XF is a sum. -/
theorem or_putX_eq_ofNat {c : Word} (hc : c &&& 0xF0FF#16 = c) (x : Reg) :
    c ||| putX x = BitVec.ofNat 16 (c.toNat + x.val * 256) := by
  have hdisjoint : c &&& putX x = 0#16 := by
    rw [← hc, BitVec.and_assoc, BitVec.and_comm 0xF0FF#16, (putX_mask x).2.2]
    exact BitVec.and_zero
  have hfield : putX x = BitVec.ofNat 16 (x.val * 256) := by
    rw [putX, ← ofNat_shiftLeft_eq, Nat.shiftLeft_eq]
  rw [← BitVec.add_eq_or_of_and_eq_zero c (putX x) hdisjoint, hfield, BitVec.ofNat_add,
    BitVec.ofNat_toNat, BitVec.setWidth_eq]

end Sys2Proof

namespace Sys2Proof.Machine

/-! ## SKP and SKNP (44_timers_keys.md R180, R181) -/

section KeySkip

variable {s : State} {x : Reg} (w : Word) (sense : Bool → Bool)

/-- The body SKP and SKNP share, for the sense in which each reads the latch, where V[x] names a key. -/
theorem attempt_keySkip_of_key {k : Fin 16} (h : s.v[x].toNat = k.val) :
    attempt w s (fun t => (t.keyNamed (t.reg x)).map fun p => t.skipIf (sense p)) =
      .next { s with pc := if sense s.keys[k] then s.pc + 4 else s.pc + 2 } := by
  have hkey : s.advance.keyNamed s.v[x] = .ok s.keys[k] := by
    obtain ⟨_, hok⟩ | ⟨hout, -⟩ := s.advance.keyNamed_cases s.v[x]
    · rw [hok]
      simp only [h]
      rfl
    · omega
  exact (attempt_of_ok (congrArg (Except.map _) hkey)).trans
    (complete_skipIf s fun _ => sense s.keys[k])

/-- The same body where V[x] names no key (92_eei_decisions.md D8). -/
theorem attempt_keySkip_of_no_key (h : 16 ≤ s.v[x].toNat) :
    attempt w s (fun t => (t.keyNamed (t.reg x)).map fun p => t.skipIf (sense p)) =
      .next (s.takeFault (some w) ⟨.keyIndexOutOfRange, s.v[x].toNat⟩) := by
  have hraise : s.advance.keyNamed s.v[x] = .error ⟨.keyIndexOutOfRange, s.v[x].toNat⟩ := by
    obtain ⟨hin, -⟩ | ⟨-, herr⟩ := s.advance.keyNamed_cases s.v[x]
    · omega
    · exact herr
  exact attempt_of_error (congrArg (Except.map _) hraise)

end KeySkip

theorem encode_skp (x : Reg) : encode (.skp x) = BitVec.ofNat 16 (0xE09E + x.val * 256) :=
  or_putX_eq_ofNat (by decide) x

theorem encode_sknp (x : Reg) : encode (.sknp x) = BitVec.ofNat 16 (0xE0A1 + x.val * 256) :=
  or_putX_eq_ofNat (by decide) x

/-- Settles O48: the two read the latch in opposite senses, and raise alike. -/
theorem keySkipsReadTheLatch : Obligations.KeySkipsReadTheLatch := by
  refine ⟨encodes_x 24 rfl, encodes_x 25 rfl, fun x s k hkey => ⟨?_, ?_⟩, fun x s hout => ⟨?_, ?_⟩⟩
  · exact attempt_keySkip_of_key _ id hkey
  · refine (attempt_keySkip_of_key _ not hkey).trans ?_
    cases s.keys[k] <;> rfl
  · rw [← encode_skp]
    exact attempt_keySkip_of_no_key _ id hout
  · rw [← encode_sknp]
    exact attempt_keySkip_of_no_key _ not hout

/-! ## The timer loads (44_timers_keys.md R182, R186, R187) -/

/-- Settles O49: each is one field written over the advanced state. -/
theorem timerLoads : Obligations.TimerLoads :=
  ⟨encodes_x 26 rfl, encodes_x 28 rfl, encodes_x 29 rfl, fun _ _ => ⟨rfl, rfl, rfl⟩⟩

/-! ## LD Vx, K (44_timers_keys.md R183 to R185) -/

theorem State.pressedKeys_eq_nil {s : State} (h : ∀ k : Fin 16, s.keys[k] = false) :
    s.pressedKeys = [] :=
  List.eq_nil_iff_forall_not_mem.mpr fun k => by simp [h k]

theorem State.exists_pressedKeys_eq_cons {s : State} {k : Fin 16} (h : s.keys[k] = true) :
    ∃ first rest, s.pressedKeys = first :: rest :=
  List.exists_cons_of_ne_nil (List.ne_nil_of_mem ((s.mem_pressedKeys k).mpr h))

/-- With a key set, the key the draw picks is recorded and the counter moves on (log entry 4). -/
theorem ldKeyWith_of_pressedKeys_cons {s : State} {first : Fin 16} {rest : List (Fin 16)}
    (h : s.pressedKeys = first :: rest) (draw : Nat → Nat) (x : Reg) :
    ldKeyWith draw x s = .next { s with
      pc := s.pc + 2
      v := s.v.set x (keyByte (pickKey (draw s.keyselDraws) first rest))
      keyselDraws := s.keyselDraws + 1 } := by
  have hadvance : s.advance.pressedKeys = first :: rest := h
  simp only [ldKeyWith, complete, hadvance]
  rfl

/-- The step back by 2 undoes the fetch's advance (44_timers_keys.md R183). -/
theorem State.advance_setPc_back (s : State) : s.advance.setPc (s.advance.pc - 2) = s := by
  simp [State.advance, State.setPc]

theorem ldKeyWith_of_no_key {s : State} (h : ∀ k : Fin 16, s.keys[k] = false) (draw : Nat → Nat)
    (x : Reg) : ldKeyWith draw x s = .next s := by
  have hadvance : s.advance.pressedKeys = [] := State.pressedKeys_eq_nil h
  simp only [ldKeyWith, complete, hadvance, State.advance_setPc_back]

/-- Settles O50: the draw picks a member of the list of set keys. -/
theorem keyWaitRecordsASetKeyOrReplays : Obligations.KeyWaitRecordsASetKeyOrReplays := by
  refine ⟨encodes_x 27 rfl, fun x s ⟨k, hk⟩ => ?_, fun x s h => ldKeyWith_of_no_key h _ x⟩
  obtain ⟨first, rest, hpressed⟩ := State.exists_pressedKeys_eq_cons hk
  have hmem := pickKey_mem (Config.keysel s.keyselDraws) first rest
  rw [← hpressed] at hmem
  exact ⟨_, (s.mem_pressedKeys _).mp hmem, ldKeyWith_of_pressedKeys_cons hpressed _ x⟩

/-- The draw can pick each of the keys it is given: a key's place in the list picks it. -/
theorem exists_pickKey_eq {k first : Fin 16} {rest : List (Fin 16)} (h : k ∈ first :: rest) :
    ∃ draw, pickKey draw first rest = k := by
  cases rest with
  | nil => exact ⟨0, (List.mem_singleton.mp h).symm⟩
  | cons second others =>
    obtain ⟨place, hlt, hplace⟩ := List.getElem_of_mem h
    have hmod : place % ((second :: others).length + 1) = place := Nat.mod_eq_of_lt hlt
    refine ⟨place, ?_⟩
    rw [pickKey, hmod, List.getD_eq_getElem _ _ hlt, hplace]

/-- Settles O51, by a source of draws that always gives the key's place in the list of set keys. -/
theorem anySetKeyCanBeDrawn : Obligations.AnySetKeyCanBeDrawn := by
  intro x s k hk
  obtain ⟨first, rest, hpressed⟩ := State.exists_pressedKeys_eq_cons hk
  obtain ⟨draw, rfl⟩ := exists_pickKey_eq (hpressed ▸ (s.mem_pressedKeys k).mpr hk)
  exact ⟨fun _ => draw, ldKeyWith_of_pressedKeys_cons hpressed _ x⟩

theorem State.WaitsForKey.step_eq_self {s : State} {x : Reg} (h : s.WaitsForKey x) :
    step s = .next s := by
  have hstep : step s = exec (.ldKey x) s := by simp [step, h.noFault, h.atWait]
  exact hstep.trans (ldKeyWith_of_no_key h.noKey _ x)

/-- Settles O52: one STEP of a waiting machine leaves its state, hence every number of them. -/
theorem waitingStepsChangeNothing : Obligations.WaitingStepsChangeNothing :=
  fun _ _ k h => run_of_step_self h.step_eq_self k

end Sys2Proof.Machine

namespace Sys2Proof.Machine

/-! ## A STEP that raises before it executes (60_exceptions.md R204) -/

theorem step_of_fetchWord_eq_error {s : State} {f : Raised} (hfault : s.fault = none)
    (hfetch : fetchWord s.mem s.pc = .error f) : step s = .next (s.takeFault none f) := by
  simp [step, fetchDecode, hfault, hfetch]

theorem step_of_decodeWord_eq_none {s : State} {w : Word} (hfault : s.fault = none)
    (hfetch : fetchWord s.mem s.pc = .ok w) (hdecode : decodeWord w = none) :
    step s = .next (s.takeFault (some w) ⟨.decodeFailure, w.toNat⟩) := by
  simp [step, fetchDecode, hfault, hfetch, hdecode]

/-- Settles O9, by the outcomes of the fetch and then those of the decoding. -/
theorem stepFaultPriority : Obligations.StepFaultPriority := by
  intro s hfault
  obtain ⟨hodd, hrange, -⟩ := fetchReadsBigEndianOrRaises s.mem s.pc
  refine ⟨fun h => ?_, fun heven hge => ?_, fun w hfetch => ⟨fun hnone => ?_, fun i hsome => ?_⟩⟩
  · exact step_of_fetchWord_eq_error hfault (hodd h)
  · exact step_of_fetchWord_eq_error hfault (hrange heven (by omega))
  · exact step_of_decodeWord_eq_none hfault hfetch hnone
  · exact step_eq_exec hfault hfetch hsome

end Sys2Proof.Machine

namespace Sys2Proof.Machine

open Claims

/-! ## The faults of an executing instruction (60_exceptions.md R200) -/

/-- What an instruction raises, and when: the rows of 60_exceptions.md R200 that are not of the fetch
or the decoding. -/
inductive InstrRaises (s : State) : Instr → Raised → Prop where
  /-- DRW: row r is the lowest one out of range (43_display.md R171) -/
  | rowOutOfRange (x y : Reg) {n : Fin 16} {r : Nat} (hr : r < n.val) (hout : 4096 ≤ s.i.toNat + r)
      (hlow : ∀ r' < r, s.i.toNat + r' < 4096) :
      InstrRaises s (.drw x y n) ⟨.memOutOfRange, s.i.toNat + r⟩
  /-- CALL with a full stack (40_control_flow.md R103) -/
  | stackOverflow (nnn : Addr12) (hfull : s.sp.val = 16) :
      InstrRaises s (.call nnn) ⟨.stackOverflow, 16⟩
  /-- RET with an empty stack (40_control_flow.md R101) -/
  | stackUnderflow (hempty : s.sp.val = 0) : InstrRaises s .ret ⟨.stackUnderflow, 0⟩
  /-- SKP or SKNP of a register that names no key (44_timers_keys.md R180, R181) -/
  | keyIndexOutOfRange {i : Instr} {x : Reg} (hskip : i = .skp x ∨ i = .sknp x)
      (hout : 16 ≤ s.v[x].toNat) : InstrRaises s i ⟨.keyIndexOutOfRange, s.v[x].toNat⟩

/-- A sprite that is not in range has a lowest row that is not. -/
theorem exists_lowest_rowOutOfRange {s : State} {n : Fin 16} (h : ¬ RowsInRange s n) :
    ∃ r, r < n.val ∧ 4096 ≤ s.i.toNat + r ∧ ∀ r' < r, s.i.toNat + r' < 4096 := by
  simp only [RowsInRange, not_forall, not_lt] at h
  obtain ⟨row, hrow, hout⟩ := h
  exact ⟨4096 - s.i.toNat, by omega, by omega, fun r' _ => by omega⟩

/-- An instruction leaves the latch, or raises and its fault is taken with its own word as the word
fetched (60_exceptions.md R201; log entry 7). -/
theorem exec_keeps_latch_or_raises (i : Instr) (s : State) :
    (∃ t, exec i s = .next t ∧ t.fault = s.fault) ∨
    ∃ f, InstrRaises s i f ∧ exec i s = .next (s.takeFault (some (encode i)) f) := by
  cases i with
  | ret =>
    obtain hempty | ⟨j, hj⟩ := s.sp.eq_zero_or_eq_succ
    · exact .inr ⟨_, .stackUnderflow (congrArg Fin.val hempty), exec_ret_of_sp_eq_zero hempty⟩
    · exact .inl ⟨_, exec_ret_of_sp_eq_succ hj, rfl⟩
  | call nnn =>
    obtain ⟨j, hj⟩ | hfull := s.sp.eq_castSucc_or_eq_last
    · exact .inl ⟨_, exec_call_of_sp_eq_castSucc hj nnn, rfl⟩
    · exact .inr ⟨_, .stackOverflow nnn (congrArg Fin.val hfull),
        encode_call nnn ▸ exec_call_of_sp_eq_sixteen hfull nnn⟩
  | drw x y n =>
    by_cases hrows : RowsInRange s n
    · exact .inl ⟨_, exec_drw_of_rowsInRange hrows x y, rfl⟩
    · obtain ⟨r, hr, hout, hlow⟩ := exists_lowest_rowOutOfRange hrows
      exact .inr ⟨_, .rowOutOfRange x y hr hout hlow,
        exec_drw_of_rowOutOfRange (spriteRowOutOfRange_eq_some hr hout hlow) x y⟩
  | skp x =>
    obtain hkey | hout := Nat.lt_or_ge s.v[x].toNat 16
    · exact .inl ⟨_, attempt_keySkip_of_key (k := ⟨_, hkey⟩) _ id rfl, rfl⟩
    · exact .inr ⟨_, .keyIndexOutOfRange (.inl rfl) hout, attempt_keySkip_of_no_key _ id hout⟩
  | sknp x =>
    obtain hkey | hout := Nat.lt_or_ge s.v[x].toNat 16
    · exact .inl ⟨_, attempt_keySkip_of_key (k := ⟨_, hkey⟩) _ not rfl, rfl⟩
    · exact .inr ⟨_, .keyIndexOutOfRange (.inr rfl) hout, attempt_keySkip_of_no_key _ not hout⟩
  | _ =>
    obtain ⟨t, ht⟩ := exec_eq_next _ s
    exact .inl ⟨t, ht, (exec_frame ht).fault nofun nofun nofun nofun nofun⟩

/-- A record that an instruction latches is of a fault it raises. -/
theorem exec_latches {i : Instr} {s t : State} {f : FaultRecord} (hfault : s.fault = none)
    (h : exec i s = .next t) (hf : t.fault = some f) :
    ∃ g, InstrRaises s i g ∧ f = ⟨g.kind, s.pc, some (encode i), g.info⟩ := by
  obtain ⟨u, hu, hkept⟩ | ⟨g, hraises, hu⟩ := exec_keeps_latch_or_raises i s
  · obtain rfl := Host.Outcome.next.inj (hu.symm.trans h)
    cases hfault.symm.trans (hkept.symm.trans hf)
  · obtain rfl := Host.Outcome.next.inj (hu.symm.trans h)
    exact ⟨g, hraises, (Option.some.inj hf).symm⟩

/-- Settles O12: the fetch raises in two ways, the decoding in one, and an instruction as `InstrRaises`
says, with the word it was decoded from. -/
theorem latchedRecordsAreTheListedKinds : Obligations.LatchedRecordsAreTheListedKinds := by
  intro s t f hfault hstep hf
  obtain ⟨_, hlatched, -⟩ | ⟨-, g, hfetch, e⟩ | ⟨-, w, hfetch, hdecode, e⟩ |
    ⟨-, w, i, hfetch, hdecode, e⟩ := step_cases s
  · cases hfault.symm.trans hlatched
  · obtain rfl := Host.Outcome.next.inj (e.symm.trans hstep)
    obtain rfl := Option.some.inj hf
    obtain ⟨hodd, eg⟩ | ⟨-, hge, eg⟩ | ⟨-, -, eg⟩ := fetchWord_cases s.mem s.pc
    · cases eg.symm.trans hfetch
      exact ⟨rfl, .inl ⟨rfl, hodd, rfl, rfl⟩⟩
    · cases eg.symm.trans hfetch
      exact ⟨rfl, .inr (.inl ⟨rfl, Nat.le_succ_of_le hge, rfl, rfl⟩)⟩
    · cases eg.symm.trans hfetch
  · obtain rfl := Host.Outcome.next.inj (e.symm.trans hstep)
    obtain rfl := Option.some.inj hf
    exact ⟨rfl, .inr (.inr ⟨w, hfetch, rfl, .inl ⟨rfl, hdecode, rfl⟩⟩)⟩
  · obtain ⟨g, hraises, rfl⟩ := exec_latches hfault (e.symm.trans hstep) hf
    have hword : some (encode i) = some w := congrArg some (encodeOfDecodeIsTheWord w i hdecode)
    refine ⟨rfl, .inr (.inr ⟨w, hfetch, hword, .inr ?_⟩)⟩
    cases hraises with
    | rowOutOfRange x y hr hout hlow => exact .inl ⟨rfl, x, y, _, _, hdecode, hr, hout, hlow, rfl⟩
    | stackOverflow nnn hfull => exact .inr (.inl ⟨rfl, ⟨nnn, hdecode⟩, hfull, rfl⟩)
    | stackUnderflow hempty => exact .inr (.inr (.inl ⟨rfl, hdecode, hempty, rfl⟩))
    | keyIndexOutOfRange hskip hout =>
      exact .inr (.inr (.inr ⟨rfl, _, hskip.imp (· ▸ hdecode) (· ▸ hdecode), hout, rfl⟩))

end Sys2Proof.Machine

namespace Sys2Proof.Machine

/-! ## SET_KEY (60_exceptions.md R215) -/

theorem setKeyCommand_of_lt {k : Nat} (h : k < 16) (p : Bool) (s : State) :
    setKeyCommand k p s = .next ({ s with keys := s.keys.set k p }, .done) := dif_pos h

theorem setKeyCommand_of_ge {k : Nat} (h : 16 ≤ k) (p : Bool) (s : State) :
    setKeyCommand k p s = .refused (.noSuchKey k) := dif_neg (Nat.not_lt.mpr h)

/-- Settles O56, by whether the index names a key. -/
theorem setKeyWritesOneLatch : Obligations.SetKeyWritesOneLatch :=
  fun _ s p => ⟨fun k => setKeyCommand_of_lt k.isLt p s, fun _ h => setKeyCommand_of_ge h p s⟩

/-! ## A latched fault (60_exceptions.md R205) -/

/-- A STEP that changes the latch took a fault. -/
theorem step_takes_fault {s t : State} (h : step s = .next t) (hlatch : t.fault ≠ s.fault) :
    ∃ w f, t = s.takeFault w f := by
  obtain rfl | hfault | ⟨i, hexec⟩ := step_next h
  · exact absurd rfl hlatch
  · exact hfault
  · exact (exec_fault hexec).resolve_right hlatch

theorem stepCommand_of_faulted {s : State} {f : FaultRecord} (h : s.fault = some f) :
    stepCommand s = .next (s, .stepStatus (some f)) := by
  simp [stepCommand, h]

theorem tickCommand_of_faulted {s : State} {f : FaultRecord} (h : s.fault = some f) :
    tickCommand s = (s, .tickStatus false (some f)) := by
  simp [tickCommand, h]

theorem State.withFault_eq_self {s : State} {latch : Option FaultRecord} (h : s.fault = latch) :
    { s with fault := latch } = s := by
  subst h
  rfl

theorem loadCommand_withFault (bytes : List Byte) (s : State) (latch : Option FaultRecord) :
    loadCommand bytes { s with fault := latch } =
      ({ (loadCommand bytes s).1 with fault := latch }, (loadCommand bytes s).2) := by
  unfold loadCommand
  split <;> rfl

/-- LOAD, SET_KEY and READ_FB neither read nor write the latch: with another record there they do the
same. -/
theorem commandWith_withFault {g : GlyphTable} {c : Command} {s t : State} {out : Response}
    (hreset : c ≠ .reset) (hstep : c ≠ .step) (htick : c ≠ .tick)
    (h : commandWith g c s = .next (t, out)) (latch : Option FaultRecord) :
    commandWith g c { s with fault := latch } = .next ({ t with fault := latch }, out) := by
  cases c with
  | reset => exact absurd rfl hreset
  | step => exact absurd rfl hstep
  | tick => exact absurd rfl htick
  | load bytes => rw [commandWith, loadCommand_withFault, Host.Outcome.next.inj h]
  | setKey k p =>
    obtain hk | hk := Nat.lt_or_ge k 16
    · cases (setKeyCommand_of_lt hk p s).symm.trans h
      exact setKeyCommand_of_lt hk p _
    · cases (setKeyCommand_of_ge hk p s).symm.trans h
  | readFb =>
    cases h
    rfl

/-- No command but RESET clears a latched fault. -/
theorem commandWith_keeps_fault {g : GlyphTable} {c : Command} {s t : State} {out : Response}
    {f : FaultRecord} (hf : s.fault = some f) (hreset : c ≠ .reset)
    (h : commandWith g c s = .next (t, out)) : t.fault = some f := by
  by_cases hstep : c = .step
  · subst hstep
    cases (stepCommand_of_faulted hf).symm.trans h
    exact hf
  by_cases htick : c = .tick
  · subst htick
    cases (congrArg Host.Outcome.next (tickCommand_of_faulted hf)).symm.trans h
    exact hf
  have hsame := commandWith_withFault hreset hstep htick h (some f)
  rw [State.withFault_eq_self hf, h] at hsame
  exact congrArg (·.1.fault) (Host.Outcome.next.inj hsame)

/-- Settles O13: a STEP that changes the latch took a fault, STEP and TICK stop at a latched one, and the
other commands but RESET neither read nor write the latch. -/
theorem faultsArePreciseAndSticky : Obligations.FaultsArePreciseAndSticky := by
  refine ⟨fun s t h hlatch => ?_, fun g s f hf => ⟨?_, ?_, rfl, ?_, ?_⟩⟩
  · obtain ⟨w, f, rfl⟩ := step_takes_fault h hlatch
    rfl
  · exact stepCommand_of_faulted hf
  · exact congrArg Host.Outcome.next (tickCommand_of_faulted hf)
  · exact fun c t out hreset => commandWith_keeps_fault hf hreset
  · intro c t out hreset hstep htick h
    have hsame := commandWith_withFault hreset hstep htick h (some f)
    rwa [State.withFault_eq_self hf] at hsame

end Sys2Proof.Machine

namespace Sys2Proof.Machine

open Claims

/-! ## TICK (60_exceptions.md R210 to R212) -/

/-- The state with k taken from each timer, stopping at 0. -/
def State.countedDown (s : State) (k : Nat) : State :=
  { s with dt := BitVec.ofNat 8 (s.dt.toNat - k), st := BitVec.ofNat 8 (s.st.toNat - k) }

theorem toNat_ofNat_toNat_sub (t : Byte) (k : Nat) :
    (BitVec.ofNat 8 (t.toNat - k)).toNat = t.toNat - k := by
  rw [BitVec.toNat_ofNat, Nat.mod_eq_of_lt (Nat.lt_of_le_of_lt (Nat.sub_le _ _) t.isLt)]

@[simp] theorem State.countedDown_dt_toNat (s : State) (k : Nat) :
    (s.countedDown k).dt.toNat = s.dt.toNat - k := toNat_ofNat_toNat_sub s.dt k

@[simp] theorem State.countedDown_st_toNat (s : State) (k : Nat) :
    (s.countedDown k).st.toNat = s.st.toNat - k := toNat_ofNat_toNat_sub s.st k

@[simp] theorem State.countedDown_fault (s : State) (k : Nat) :
    (s.countedDown k).fault = s.fault := rfl

theorem State.countedDown_zero (s : State) : s.countedDown 0 = s := by
  simp [State.countedDown]

theorem State.countedDown_countedDown (s : State) (j k : Nat) :
    (s.countedDown j).countedDown k = s.countedDown (j + k) := by
  rw [State.countedDown, State.countedDown_dt_toNat, State.countedDown_st_toNat, Nat.sub_sub,
    Nat.sub_sub]
  rfl

theorem countDown_eq_ofNat (t : Byte) : countDown t = BitVec.ofNat 8 (t.toNat - 1) :=
  BitVec.eq_of_toNat_eq ((countDown_toNat t).trans (toNat_ofNat_toNat_sub t 1).symm)

/-- With no fault latched both timers count down, and ST = 1 is the event. -/
theorem tickCommand_of_unfaulted {s : State} (h : s.fault = none) :
    tickCommand s = (s.countedDown 1, .tickStatus (decide (s.st.toNat = 1)) none) := by
  have hevent : (s.st == 1) = decide (s.st.toNat = 1) :=
    decide_eq_decide.mpr BitVec.toNat_inj.symm
  simp only [tickCommand, h, countDown_eq_ofNat, hevent, State.countedDown]

/-- Settles O53, by whether a fault is latched. -/
theorem tickCountsBothTimersDown : Obligations.TickCountsBothTimersDown :=
  fun _ _ => ⟨fun h => congrArg Host.Outcome.next (tickCommand_of_unfaulted h),
    fun _ hf => congrArg Host.Outcome.next (tickCommand_of_faulted hf)⟩

/-- TICKs add up, for none of them latches a fault. -/
theorem afterTicks_of_unfaulted {s : State} (h : s.fault = none) (k : Nat) :
    afterTicks k s = s.countedDown k := by
  induction k generalizing s with
  | zero => exact s.countedDown_zero.symm
  | succ k ih =>
    calc afterTicks k (tickCommand s).1
        = afterTicks k (s.countedDown 1) := by rw [tickCommand_of_unfaulted h]
      _ = (s.countedDown 1).countedDown k := ih h
      _ = s.countedDown (k + 1) := by rw [State.countedDown_countedDown, Nat.add_comm]

/-- Settles O54: k TICKs take k from DT, and write the timers alone. -/
theorem delayTimerStopsAtZero : Obligations.DelayTimerStopsAtZero := by
  intro s k h
  rw [afterTicks_of_unfaulted h]
  exact ⟨s.countedDown_dt_toNat k, rfl⟩

/-- Settles O55: what k TICKs leave of ST is 1 exactly when ST was k + 1. -/
theorem soundEventFiresExactlyOnce : Obligations.SoundEventFiresExactlyOnce := by
  intro s k h
  have hone : s.st.toNat - k = 1 ↔ s.st.toNat = k + 1 := by omega
  rw [afterTicks_of_unfaulted h, tickCommand_of_unfaulted (s := s.countedDown k) h,
    State.countedDown_st_toNat, decide_eq_decide.mpr hone]
  exact ⟨rfl, rfl⟩

end Sys2Proof.Machine

namespace Sys2Proof.Machine

/-! ## Schedules of commands (70_reset_and_hazards.md R246) -/

/-- The invariant speaks of memory only by its canonical form. -/
theorem State.Invariant.withMem {s : State} (hs : s.Invariant) {m : Memory} (hm : m.wf = true) :
    { s with mem := m }.Invariant :=
  { hs with memWf := hm }

/-- Every command keeps the invariant: STEP as `stepKeepsTheInvariant` says, RESET because the
reset state meets it, LOAD keeps memory canonical, and the others write nothing the invariant speaks of. -/
theorem State.Invariant.of_commandWith {g : GlyphTable} {c : Command} {s t : State} {out : Response}
    (hs : s.Invariant) (h : commandWith g c s = .next (t, out)) : t.Invariant := by
  cases c with
  | reset =>
    obtain rfl := congrArg Prod.fst (Host.Outcome.next.inj h)
    exact { resetMeetsTheInvariant g with }
  | load bytes =>
    obtain rfl := congrArg Prod.fst (Host.Outcome.next.inj h)
    obtain ⟨mem, e⟩ := loadCommand_fst bytes s
    have hwf := loadCommand_wf (bytes := bytes) hs.memWf
    rw [e] at hwf ⊢
    exact hs.withMem hwf
  | step => exact stepKeepsTheInvariant s t hs (stepCommand_next h)
  | tick =>
    obtain rfl := congrArg Prod.fst (Host.Outcome.next.inj h)
    obtain ⟨dt, st, e⟩ := tickCommand_fst s
    rw [e]
    exact { hs with }
  | setKey k p =>
    obtain ⟨keys, rfl⟩ := setKeyCommand_next h
    exact { hs with }
  | readFb =>
    obtain rfl := congrArg Prod.fst (Host.Outcome.next.inj h)
    exact hs

/-- A schedule that completes is a first command that completes and the rest from the state it gives. -/
theorem runCommands_cons_next {g : GlyphTable} {c : Command} {rest : List Command} {s u : State}
    {outs : List Response} (h : runCommands g (c :: rest) s = .next (u, outs)) :
    ∃ t out outs', commandWith g c s = .next (t, out) ∧
      runCommands g rest t = .next (u, outs') ∧ outs = out :: outs' := by
  simp only [runCommands] at h
  split at h
  next => cases h
  next => cases h
  next t out hfirst =>
    split at h
    next u' outs' hrest =>
      cases h
      exact ⟨t, out, outs', hfirst, hrest, rfl⟩
    next => cases h
    next => cases h

/-- A schedule keeps the invariant, from any state that meets it. -/
theorem State.Invariant.of_runCommands {g : GlyphTable} {cs : List Command} {s u : State}
    {outs : List Response} (hs : s.Invariant) (h : runCommands g cs s = .next (u, outs)) :
    u.Invariant := by
  induction cs generalizing s outs with
  | nil =>
    cases h
    exact hs
  | cons c rest ih =>
    obtain ⟨t, out, outs', hfirst, hrest, -⟩ := runCommands_cons_next h
    exact ih (hs.of_commandWith hfirst) hrest

/-- Settles O16: the reset state meets the invariant, and a schedule keeps it. -/
theorem everyScheduleKeepsTheInvariant : Obligations.EveryScheduleKeepsTheInvariant :=
  fun g _ _ _ h => (resetMeetsTheInvariant g).of_runCommands h

/-! ## The halted machine (70_reset_and_hazards.md R240) -/

/-- The STEP of a halted machine executes the jump, which writes the address `pc` holds. -/
theorem State.HaltedAt.step_eq_self {s : State} {a : Addr12} (h : s.HaltedAt a) :
    step s = .next s :=
  calc step s
      = exec (.jp a) s :=
        step_eq_exec h.noFault h.jumpsToSelf (decodeOfEncodeIsTheInstruction (.jp a))
    _ = .next { s with pc := zext16 a } := rfl
    _ = .next s := by rw [← h.atA]

/-- Settles O35: one STEP of a halted machine leaves its state, hence every number of them. -/
theorem haltedStepsChangeNothing : Obligations.HaltedStepsChangeNothing :=
  fun _ _ k h => run_of_step_self h.step_eq_self k

/-! ## LOAD (70_reset_and_hazards.md R236) -/

theorem loadCommand_of_le {bytes : List Byte} (h : bytes.length ≤ 3584) (s : State) :
    loadCommand bytes s = ({ s with mem := s.mem.writeBytes 0x200 bytes }, .loaded) :=
  if_pos (decide_eq_true h)

theorem loadCommand_of_gt {bytes : List Byte} (h : 3584 < bytes.length) (s : State) :
    loadCommand bytes s = (s, .capacityError) :=
  if_neg fun hle => absurd (of_decide_eq_true hle) (Nat.not_le.mpr h)

/-- An image of at most 3584 bytes ends within memory. -/
theorem image_fits {n : Nat} (h : n ≤ 3584) : 0x200 + n ≤ Config.memSize :=
  Nat.add_le_add_left h 0x200

/-- Settles O57, by the length of the image: what the copy loop wrote is read back by address. -/
theorem loadCopiesTheImageOrRefuses : Obligations.LoadCopiesTheImageOrRefuses := by
  intro g s bytes hwf
  refine ⟨fun hle => ⟨s.mem.writeBytes 0x200 bytes, ?_, ?_, ?_⟩, fun hgt => ?_⟩
  · exact congrArg Host.Outcome.next (loadCommand_of_le hle s)
  · intro j hj
    rw [Memory.read_writeBytes hwf _ _ (image_fits hle), dif_pos (by omega)]
    simp only [Nat.add_sub_cancel_left]
  · intro a ha
    rw [Memory.read_writeBytes hwf _ _ (image_fits hle), dif_neg (by omega)]
  · exact congrArg Host.Outcome.next (loadCommand_of_gt hgt s)

/-! ## RESET (70_reset_and_hazards.md R235) -/

/-- The reset memory holds the GLYPH bytes, and zeros above them (10_state.md R37). -/
theorem resetWith_mem_read (g : GlyphTable) (a : Nat) :
    (State.resetWith g).mem.read a = if h : a < 80 then g[a] else 0 := by
  have hfit : 0 + g.toList.length ≤ Config.memSize := by simp [Config.glyphSize, Config.memSize]
  rw [State.resetWith, Memory.read_writeBytes Memory.wf_nil 0 g.toList hfit]
  by_cases h : a < 80
  · simp [h]
  · simp [h, Memory.read, Memory.unlisted]

/-- Settles O58: memory by its bytes, every other element by its value in the reset state. -/
theorem resetValues : Obligations.ResetValues := by
  intro g s
  refine ⟨resetCommand g s, rfl, ?v, rfl, rfl, ?stack, rfl, rfl, rfl, ?keys,
    Framebuffer.lit_blank, ?glyph, ?zeros, rfl, rfl⟩
  case v => exact fun r => Vector.getElem_replicate r.isLt
  case stack => exact fun j => Vector.getElem_replicate j.isLt
  case keys => exact fun k => Vector.getElem_replicate k.isLt
  case glyph => exact fun a => (resetWith_mem_read g a).trans (dif_pos a.isLt)
  case zeros => exact fun a ha => (resetWith_mem_read g a).trans (dif_neg (Nat.not_lt.mpr ha))

/-! ## Launch (70_reset_and_hazards.md R241) -/

/-- The launched state is the reset state with the program copied to 0x200. -/
theorem launch_of_le (g : GlyphTable) {bytes : List Byte} (h : bytes.length ≤ 3584) :
    launch g bytes = { State.resetWith g with
      mem := (State.resetWith g).mem.writeBytes 0x200 bytes } :=
  congrArg Prod.fst (loadCommand_of_le h (State.resetWith g))

/-- Settles O60: the program's bytes stand at 0x200, where the reset `pc` fetches. -/
theorem firstStepFetchesTheProgramsFirstWord :
    Obligations.FirstStepFetchesTheProgramsFirstWord := by
  intro g hi lo rest hle
  rw [launch_of_le g (bytes := hi :: lo :: rest) hle, ← bigEndianWord_eq_ofNat]
  have hfetch := fetchWord_writeBytes (pc := 0x200) (resetWith_wf g) rfl hi lo rest (image_fits hle)
  exact ⟨rfl, hfetch, rfl⟩

end Sys2Proof.Machine
